-- ==== Sys2Proof/Word.lean ====
section
/-! DEFINITION. The widths of the hardware's values (spec 00_scope.md R7, R10; 30_encoding.md R91): every value is an
unsigned number of a stated width, and bit 0 is the least significant bit (R9). -/

namespace Sys2Proof

/-- A 4-bit field: a register number, a sprite height (30_encoding.md R91). -/
abbrev Nibble := BitVec 4

/-- A byte: a memory cell, a general register, a timer (10_state.md R20, R21, R25, R26). -/
abbrev Byte := BitVec 8

/-- The 12-bit address field `nnn` of an instruction (30_encoding.md R91). -/
abbrev Addr := BitVec 12

/-- A 16-bit value: an opcode, `I`, `PC`, a stack entry, the key vector (10_state.md R23, R24, R27, R35). -/
abbrev Word := BitVec 16

/-- The 17-bit info of the fault register (10_state.md R29). -/
abbrev Info := BitVec 17

end Sys2Proof
end

