-- ==== Sys2Proof/Syntax.lean ====
section
/-! DEFINITION. The instruction set, whole: one constructor per row of spec/opcode_table.json (30_encoding.md R95). -/

namespace Sys2Proof

/-- The 34 instructions. The comment of a constructor gives the pattern that is its mnemonic (R95, R103). -/
inductive Instr where
  /-- `00E0`, clear the display (44_display.md R210). -/
  | cls
  /-- `00EE`, return (41_control_transfer.md R142). -/
  | ret
  /-- `1nnn`, jump (R140). -/
  | jp (nnn : Addr)
  /-- `2nnn`, call (R141). -/
  | call (nnn : Addr)
  /-- `3xnn`, skip if equal to the immediate (R144). -/
  | seImm (x : Nibble) (nn : Byte)
  /-- `4xnn`, skip if not equal to the immediate (R145). -/
  | sneImm (x : Nibble) (nn : Byte)
  /-- `5xy0`, skip if the registers are equal (R146). -/
  | seReg (x y : Nibble)
  /-- `6xnn`, load immediate (42_register_alu.md R160). -/
  | ldImm (x : Nibble) (nn : Byte)
  /-- `7xnn`, add immediate (R161). -/
  | addImm (x : Nibble) (nn : Byte)
  /-- `8xy0`, register copy (R162). -/
  | ldReg (x y : Nibble)
  /-- `8xy1`, bitwise OR (R163). -/
  | orReg (x y : Nibble)
  /-- `8xy2`, bitwise AND (R164). -/
  | andReg (x y : Nibble)
  /-- `8xy3`, bitwise XOR (R165). -/
  | xorReg (x y : Nibble)
  /-- `8xy4`, add with carry flag (R166). -/
  | addReg (x y : Nibble)
  /-- `8xy5`, subtract `Vx - Vy` (R167). -/
  | sub (x y : Nibble)
  /-- `8xy6`, shift `Vy` right by one (R168). -/
  | shr (x y : Nibble)
  /-- `8xy7`, reverse subtract `Vy - Vx` (R169). -/
  | subn (x y : Nibble)
  /-- `8xyE`, shift `Vy` left by one (R170). -/
  | shl (x y : Nibble)
  /-- `9xy0`, skip if the registers differ (R147). -/
  | sneReg (x y : Nibble)
  /-- `Annn`, load the address register (43_index_and_memory.md R190). -/
  | ldI (nnn : Addr)
  /-- `Bnnn`, jump with offset `V0` (R143). -/
  | jpV0 (nnn : Addr)
  /-- `Cxnn`, masked random byte (R171). -/
  | rnd (x : Nibble) (nn : Byte)
  /-- `Dxyn`, draw a sprite (R212). -/
  | drw (x y n : Nibble)
  /-- `Ex9E`, skip if the key is pressed (45_keypad_and_timers.md R231). -/
  | skp (x : Nibble)
  /-- `ExA1`, skip if the key is released (R232). -/
  | sknp (x : Nibble)
  /-- `Fx07`, read the delay timer (R233). -/
  | ldVxDt (x : Nibble)
  /-- `Fx0A`, wait for a key (R234). -/
  | ldVxK (x : Nibble)
  /-- `Fx15`, set the delay timer (R235). -/
  | ldDtVx (x : Nibble)
  /-- `Fx18`, set the sound timer (R236). -/
  | ldStVx (x : Nibble)
  /-- `Fx1E`, add a register to the address register (R191). -/
  | addI (x : Nibble)
  /-- `Fx29`, address of a font glyph (R192). -/
  | ldF (x : Nibble)
  /-- `Fx33`, store binary-coded decimal (R193). -/
  | ldB (x : Nibble)
  /-- `Fx55`, store `V0` to `Vx` (R194). -/
  | stRegs (x : Nibble)
  /-- `Fx65`, load `V0` to `Vx` (R195). -/
  | ldRegs (x : Nibble)
  deriving DecidableEq, Repr

/-- The mnemonic of record: the pattern name of R95 (R103). -/
def Instr.mnemonic : Instr → String
  | .cls => "00E0" | .ret => "00EE" | .jp _ => "1nnn" | .call _ => "2nnn"
  | .seImm _ _ => "3xnn" | .sneImm _ _ => "4xnn" | .seReg _ _ => "5xy0"
  | .ldImm _ _ => "6xnn" | .addImm _ _ => "7xnn" | .ldReg _ _ => "8xy0"
  | .orReg _ _ => "8xy1" | .andReg _ _ => "8xy2" | .xorReg _ _ => "8xy3"
  | .addReg _ _ => "8xy4" | .sub _ _ => "8xy5" | .shr _ _ => "8xy6"
  | .subn _ _ => "8xy7" | .shl _ _ => "8xyE" | .sneReg _ _ => "9xy0"
  | .ldI _ => "Annn" | .jpV0 _ => "Bnnn" | .rnd _ _ => "Cxnn" | .drw _ _ _ => "Dxyn"
  | .skp _ => "Ex9E" | .sknp _ => "ExA1" | .ldVxDt _ => "Fx07" | .ldVxK _ => "Fx0A"
  | .ldDtVx _ => "Fx15" | .ldStVx _ => "Fx18" | .addI _ => "Fx1E" | .ldF _ => "Fx29"
  | .ldB _ => "Fx33" | .stRegs _ => "Fx55" | .ldRegs _ => "Fx65"

end Sys2Proof
end

