-- ==== Sys2Proof/Config.lean ====
section
/-! DEFINITION. What an implementation fixes (the parameters of spec 00_scope.md R8) and the environment: its events as plain data
(10_state.md R35, R38 to R42) and the free values that stand for what it leaves open. -/

namespace Sys2Proof

/-- The parameters of R8: "The model takes each as an argument". State carries them unchanged (assumption log 5), so a
statement about every state holds for every font and every stack capacity. -/
structure Config where
  /-- FONT, 80 bytes (10_state.md R33; decision D3). -/
  font : Vector Byte 80
  /-- STACK_CAPACITY (10_state.md R27; decision D6). -/
  stackCapacity : Nat
  deriving DecidableEq, Repr

/-! ### The environment as data -/

namespace Machine

/-- What one STEP samples from outside (10_state.md R35) and the draws the environment decides. -/
structure StepInput where
  /-- `keys[k]` is 1 when key `k` is pressed (R35). -/
  keys : Word
  /-- The random byte (R35, decision D16). -/
  rnd : Byte
  /-- The answer for a key number above 15: the draw of 45_keypad_and_timers.md R230 (decision D14). -/
  absentKey : Bool
  /-- Which of the pressed keys `Fx0A` delivers: the draw of R234 (decision D15). Any natural number names one of them. -/
  keyChoice : Nat
  deriving DecidableEq, Repr, Inhabited

/-- The three events through which the state changes (10_state.md R38, R39, R42). -/
inductive Event where
  | step (input : StepInput)
  | tick
  | reset (image : List Byte)
  deriving DecidableEq, Repr, Inhabited

end Machine

/-! ### The environment's free choices -/

/-- FREE VALUE: the `n`-th event the schedule does not name: a STEP with any inputs, a TICK, or a RESET with any image (the
order of events: 10_state.md R40, R42; the inputs: R35, decisions D14, D15, D16; assumption log 2, 3). -/
opaque Config.freeEvent : Nat → Machine.Event

/-- FREE VALUE: the inputs of the STEP that `State.placeWord` puts into a schedule that holds none (R35; assumption log 3,
21). -/
opaque Config.freeInput : Nat → Machine.StepInput

end Sys2Proof
end

