-- ==== Sys2Proof/WellFormed.lean ====
section
/-! DEFINITION. Well-formedness. Every value of every operand field is legal in every instruction that has the field
(30_encoding.md R102), and the fields of `Instr` have exactly the widths of R91, so EVERY `Instr` is well formed by its
type and there is no check on it. What can be ill formed is what comes from outside: a configuration and an image. -/

namespace Sys2Proof

/-- A configuration the spec admits: the stack capacity is "at least 1" (00_scope.md R8). That FONT has 80 bytes is its
type. -/
def Config.wf (c : Config) : Bool := decide (1 ≤ c.stackCapacity)

/-- An image the loader accepts: "program length + 0x200 ≤ 4096" (20_memory.md R76). -/
def imageWf (image : List Byte) : Bool := decide (image.length + 0x200 ≤ 4096)

end Sys2Proof
end

