-- ==== Sys2Proof/Machine/Font.lean ====
section
/-! DEFINITION. The default values of the parameters FONT and STACK_CAPACITY (spec 00_scope.md R8). -/

namespace Sys2Proof.Machine

/-- The default FONT of 10_state.md R33, sixteen glyphs of five bytes, top row first. PRESUMED: the spec supplies the bytes
from general knowledge (93_implementation_defined.md GK1); unsafe for a claim about the shape of a glyph (assumption
log 6). -/
def defaultFont : Vector Byte 80 :=
  #v[0xF0, 0x90, 0x90, 0x90, 0xF0,  0x20, 0x60, 0x20, 0x20, 0x70,
     0xF0, 0x10, 0xF0, 0x80, 0xF0,  0xF0, 0x10, 0xF0, 0x10, 0xF0,
     0x90, 0x90, 0xF0, 0x10, 0x10,  0xF0, 0x80, 0xF0, 0x10, 0xF0,
     0xF0, 0x80, 0xF0, 0x90, 0xF0,  0xF0, 0x10, 0x20, 0x40, 0x40,
     0xF0, 0x90, 0xF0, 0x90, 0xF0,  0xF0, 0x90, 0xF0, 0x10, 0xF0,
     0xF0, 0x90, 0xF0, 0x90, 0x90,  0xE0, 0x90, 0xE0, 0x90, 0xE0,
     0xF0, 0x80, 0x80, 0x80, 0xF0,  0xE0, 0x90, 0x90, 0x90, 0xE0,
     0xF0, 0x80, 0xF0, 0x80, 0xF0,  0xF0, 0x80, 0xF0, 0x80, 0x80]

/-- The configuration `State.reset` starts with: the default FONT (log 6) and STACK_CAPACITY 16 (00_scope.md R8, decision
D6). DESIGN CHOICE: 16 is the default the spec names; unsafe for a claim that depends on the number (assumption log 7). -/
def defaultConfig : Config := { font := defaultFont, stackCapacity := 16 }

end Sys2Proof.Machine
end

