-- ==== Sys2Proof/Machine/State.lean ====
section
/-! DEFINITION. The state of the machine as plain data (spec 10_state.md R20 to R32), the faults (60_exceptions.md
R250) and the state after reset. -/

namespace Sys2Proof.Machine

/-! ### Faults -/

/-- The four error conditions of 60_exceptions.md R250, with the value each records: the `F(info)` of `raise F(info)`
(00_scope.md R11). Raising one is not the end of the model's run: `State.takeFault` enters it (R255) and the step answers
a NEXT state with FAULT set. No step answers `Outcome.fault`. -/
inductive Fault where
  /-- Code 1. Raised by a fetch with `PC > 4094` and by `Dxyn`, `Fx33`, `Fx55`, `Fx65` with an address above 4095 (R251).
  Safe: the spec's own fault, entered as it describes. -/
  | addressOutOfRange (addr : Nat)
  /-- Code 2. Raised by `2nnn` when the stack is full; the address is that of the instruction (R252). Safe. -/
  | stackOverflow (ipc : Word)
  /-- Code 3. Raised by `00EE` when the stack is empty; the address is that of the instruction (R253). Safe. -/
  | stackUnderflow (ipc : Word)
  /-- Code 4. Raised by RESET with an image longer than 3584 bytes (R254). Safe. -/
  | imageTooLarge (length : Nat)
  deriving DecidableEq, Repr

/-- Why an instruction has no meaning in the model. -/
inductive Refusal where
  /-- Raised by an arm of `exec` whose instruction has no meaning yet. Safe. No arm raises it now. -/
  | notModelled (mnemonic : String)
  deriving DecidableEq, Repr

/-- The codes of the fault register (R250; the numbers are `FaultCode.number`). -/
inductive FaultCode where
  | noFault
  | addressOutOfRange
  | stackOverflow
  | stackUnderflow
  | imageTooLarge
  deriving DecidableEq, Repr

/-- FAULT, the pair `(code, info)` (10_state.md R29; decision D19). -/
structure FaultReg where
  code : FaultCode
  info : Info
  deriving DecidableEq, Repr

/-! ### State -/

/-- The whole state. `cfg` holds the parameters of 00_scope.md R8, `mem` to `fault` are the state of 10_state.md R20 to R29,
`unk` is an output port (R36), and `input`, `schedule`, `draws` are the model's own: the environment as data (assumption
log 1 to 5). -/
structure State where
  /-- The parameters FONT and STACK_CAPACITY; no event changes them (R8). -/
  cfg : Config
  /-- MEM (R20), as the cells that differ from what an unlisted address reads as. -/
  mem : List Host.Cell
  /-- V0 to VF (R21, R22). -/
  v : Vector Byte 16
  /-- I (R23). -/
  i : Word
  /-- PC (R24). -/
  pc : Word
  /-- DT (R25). -/
  dt : Byte
  /-- ST (R26). -/
  st : Byte
  /-- STACK (R27): oldest first, `Push` appends at the end. -/
  stack : List Word
  /-- DISP (R28): row 0 first; in a row the most significant bit is column 0. -/
  disp : Vector (BitVec 64) 32
  /-- FAULT (R29). -/
  fault : FaultReg
  /-- The output `unk` for the last STEP (R36, 40_fetch_decode_step.md R129). -/
  unk : Bool
  /-- What the current STEP has sampled. -/
  input : StepInput
  /-- The events to come, oldest first; after them come free ones (`Config.freeEvent`). -/
  schedule : List Event
  /-- How many free values have been taken. -/
  draws : Nat
  deriving DecidableEq, Repr

/-- The machine after RESET with the empty image and the default parameters (10_state.md R32, 70_reset_and_hazards.md
R290, R296): memory lists nothing, so it reads as the font and zeros. `unk`, `input`, `schedule`, `draws` are the model's
own and their values are a DESIGN CHOICE (assumption log 1 to 4). -/
def State.reset : State where
  cfg := defaultConfig
  mem := []
  v := Vector.replicate 16 0
  i := 0x0000
  pc := 0x0200
  dt := 0x00
  st := 0x00
  stack := []
  disp := Vector.replicate 32 0
  fault := ⟨.noFault, 0⟩
  unk := false
  input := { keys := 0, rnd := 0, absentKey := false, keyChoice := 0 }
  schedule := []
  draws := 0

end Sys2Proof.Machine
end

