-- ==== Sys2Proof/Machine/Ops.lean ====
section
/-! DEFINITION. The operations every instruction shares: registers, program counter, memory, call stack, and taking a fault
(spec 00_scope.md R11, 20_memory.md, 40_fetch_decode_step.md, 60_exceptions.md). -/

namespace Sys2Proof.Machine

/-! ### One update per piece of state -/

/-- `V[k] <- b` (R21: sixteen independent registers, none hardwired). -/
def State.setReg (s : State) (k : Nibble) (b : Byte) : State := { s with v := s.v.set k.toNat b k.isLt }
/-- `I <- w` (R23). -/
def State.setI (s : State) (w : Word) : State := { s with i := w }
/-- `pc <- w` (R24). -/
def State.setPc (s : State) (w : Word) : State := { s with pc := w }
/-- `DT <- b` (R25). -/
def State.setDt (s : State) (b : Byte) : State := { s with dt := b }
/-- `ST <- b` (R26). -/
def State.setSt (s : State) (b : Byte) : State := { s with st := b }
/-- Replaces the call stack (R27). -/
def State.setStack (s : State) (l : List Word) : State := { s with stack := l }
/-- Replaces the display (R28). -/
def State.setDisp (s : State) (d : Vector (BitVec 64) 32) : State := { s with disp := d }
/-- Replaces the memory list (R20). -/
def State.setMem (s : State) (m : List Host.Cell) : State := { s with mem := m }
/-- Replaces FAULT (R29). -/
def State.setFault (s : State) (f : FaultReg) : State := { s with fault := f }
/-- Drives the output `unk` (R36). -/
def State.setUnk (s : State) (b : Bool) : State := { s with unk := b }
/-- Samples the inputs of a STEP (R35). -/
def State.setInput (s : State) (inp : StepInput) : State := { s with input := inp }
/-- Replaces what the environment will do next (assumption log 1). -/
def State.setSchedule (s : State) (l : List Event) : State := { s with schedule := l }
/-- Replaces the count of free values (assumption log 2, 3). -/
def State.setDraws (s : State) (n : Nat) : State := { s with draws := n }

/-- `V[k]` (R21). -/
def State.reg (s : State) (k : Nibble) : Byte := s.v[k.toNat]'k.isLt

/-- VF, general register 15 (R22). -/
abbrev vf : Nibble := 0xF

/-! ### The program counter -/

/-- `pc <- ipc + 2`, done before an instruction's own effect (40_fetch_decode_step.md R122). -/
def State.advance (s : State) : State := s.setPc (s.pc + 2)

/-- `if c then skip`: `pc <- (pc + 2) mod 65536` on the already advanced `pc` (00_scope.md R11, R126). -/
def State.skipIf (s : State) (c : Bool) : State := if c then s.setPc (s.pc + 2) else s

/-- `pc <- pc - 2`, back to the instruction's own address (45_keypad_and_timers.md R234). -/
def State.rewind (s : State) : State := s.setPc (s.pc - 2)

/-! ### Memory as a canonical list -/

/-- What an unlisted address reads as: the font at 0x000 to 0x04F, zero elsewhere (20_memory.md R63). -/
def initialByte (font : Vector Byte 80) (a : Nat) : Byte := if h : a < 80 then font[a] else 0

/-- The byte the list gives an address. -/
def Memory.read (font : Vector Byte 80) : List Host.Cell → Nat → Byte
  | [], a => initialByte font a
  | (b, u) :: rest, a => if a = b then u else Memory.read font rest a

/-- Puts a cell before the first one with a higher address. -/
def Memory.insertCell : List Host.Cell → Nat → Byte → List Host.Cell
  | [], a, u => [(a, u)]
  | (b, t) :: rest, a, u => if b < a then (b, t) :: Memory.insertCell rest a u else (a, u) :: (b, t) :: rest

/-- Writes one byte and keeps the form: the old entry goes, and a new one comes in its place unless the byte is what the
unlisted address reads as. -/
def Memory.write (font : Vector Byte 80) (m : List Host.Cell) (a : Nat) (u : Byte) : List Host.Cell :=
  let others := m.filter fun c => decide (c.1 ≠ a)
  if u = initialByte font a then others else Memory.insertCell others a u

/-- Writes bytes from `a` up, the lowest address first. -/
def Memory.writeAll (font : Vector Byte 80) (m : List Host.Cell) (a : Nat) : List Byte → List Host.Cell
  | [] => m
  | b :: bs => Memory.writeAll font (Memory.write font m a b) (a + 1) bs

/-- The canonical form: addresses strictly rising and below 4096, no entry equal to what an unlisted address reads as. -/
abbrev Memory.wf (font : Vector Byte 80) (m : List Host.Cell) : Prop :=
  m.Pairwise (fun c d => c.1 < d.1) ∧ ∀ c ∈ m, c.1 < 4096 ∧ c.2 ≠ initialByte font c.1

/-! ### The memory interface: one byte per access, every access checked (20_memory.md R64, R65, R66) -/

/-- The byte at an address of the space, whatever the address. -/
def State.byteAt (s : State) (a : Nat) : Byte := Memory.read s.cfg.font s.mem a

/-- `MemRead(a, 1)`: raises AddressOutOfRange(a) when `a >= 4096`. The address is a natural number, never wrapped. -/
def State.memRead (s : State) (a : Nat) : Except Fault Byte :=
  if a < 4096 then .ok (s.byteAt a) else .error (.addressOutOfRange a)

/-- `MemWrite(a, 1, b)`: raises AddressOutOfRange(a) when `a >= 4096`; no cell is read-only (R62). -/
def State.memWrite (s : State) (a : Nat) (b : Byte) : Except Fault State :=
  if a < 4096 then .ok (s.setMem (Memory.write s.cfg.font s.mem a b)) else .error (.addressOutOfRange a)

/-- Reads `n` bytes from `a` up; raises at the first address out of range, which is the lowest (R196). -/
def State.readBytes (s : State) (a : Nat) : Nat → Except Fault (List Byte)
  | 0 => .ok []
  | n + 1 =>
    match s.memRead a with
    | .error f => .error f
    | .ok b =>
      match s.readBytes (a + 1) n with
      | .error f => .error f
      | .ok bs => .ok (b :: bs)

/-- Writes bytes from `a` up; raises at the first address out of range, which is the lowest, and then the bytes already
written are discarded with the step (R196, decision D7). -/
def State.writeBytes (s : State) (a : Nat) : List Byte → Except Fault State
  | [] => .ok s
  | b :: bs =>
    match s.memWrite a b with
    | .error f => .error f
    | .ok t => t.writeBytes (a + 1) bs

/-! ### The call stack (10_state.md R27) -/

/-- `Push(w)`: raises StackOverflow(ipc) when the stack already holds STACK_CAPACITY entries (00_scope.md R11). -/
def State.push (s : State) (ipc w : Word) : Except Fault State :=
  if s.stack.length < s.cfg.stackCapacity then .ok (s.setStack (s.stack ++ [w])) else .error (.stackOverflow ipc)

/-- `Pop()`: removes and returns the most recent entry; raises StackUnderflow(ipc) when there is none (00_scope.md R11). -/
def State.pop (s : State) (ipc : Word) : Except Fault (Word × State) :=
  match s.stack.getLast? with
  | some w => .ok (w, s.setStack s.stack.dropLast)
  | none => .error (.stackUnderflow ipc)

/-! ### Taking a fault

There is no handler, no vector and no mode to change, nothing is stacked (60_exceptions.md R255), and there is no return
from a fault: the only way out is RESET (R258). -/

/-- The code of R250 as a number. -/
def FaultCode.number : FaultCode → Nat
  | .noFault => 0
  | .addressOutOfRange => 1
  | .stackOverflow => 2
  | .stackUnderflow => 3
  | .imageTooLarge => 4

/-- The code a fault records (R250). -/
def Fault.code : Fault → FaultCode
  | .addressOutOfRange _ => .addressOutOfRange
  | .stackOverflow _ => .stackOverflow
  | .stackUnderflow _ => .stackUnderflow
  | .imageTooLarge _ => .imageTooLarge

/-- The info a fault records (R250): the address, or the length saturated to 17 bits (R254). -/
def Fault.info : Fault → Info
  | .addressOutOfRange a => BitVec.ofNat 17 a
  | .stackOverflow w => w.setWidth 17
  | .stackUnderflow w => w.setWidth 17
  | .imageTooLarge n => BitVec.ofNat 17 (min n (2 ^ 17 - 1))

/-- Fault entry on the state BEFORE the faulting step: every write of the step is discarded and FAULT is set (R255,
decision D7). -/
def State.takeFault (s : State) (f : Fault) : State := s.setFault ⟨f.code, f.info⟩

/-- The commit phase (40_fetch_decode_step.md R120): all writes of an instruction together, or the fault it raised, entered
on the state before it. Both are next states. -/
def finish (s : State) (r : Except Fault State) : Host.Outcome State Fault Refusal :=
  match r with
  | .ok t => .next t
  | .error f => .next (s.takeFault f)

end Sys2Proof.Machine
end

