-- ==== Sys2Proof/Machine/Flags.lean ====
section
/-! DEFINITION. The flag computations: VF is written as a whole byte, 0x00 or 0x01 (spec 10_state.md R22,
42_register_alu.md R166 to R172, 44_display.md R213). -/

namespace Sys2Proof.Machine

/-- A flag as the byte VF holds. -/
def flagByte (c : Bool) : Byte := if c then 1 else 0

/-- `1 if a + b > 255 else 0` (R166). -/
def carryFlag (a b : Byte) : Byte := flagByte (decide (255 < a.toNat + b.toNat))

/-- `0 if minuend < subtrahend else 1`: 1 means no borrow (R167, R169). -/
def noBorrowFlag (minuend subtrahend : Byte) : Byte := flagByte (decide (subtrahend.toNat ≤ minuend.toNat))

/-- `b & 1`: the bit a right shift moves out (R168). -/
def shiftedOutRight (b : Byte) : Byte := b &&& 1

/-- `b >> 7`: the bit a left shift moves out (R170). -/
def shiftedOutLeft (b : Byte) : Byte := b >>> 7

/-- `VF = collided` (R212, R213). -/
def collisionFlag (collided : Bool) : Byte := flagByte collided

/-- VF first, then `V[x]`, from a flag and a result both computed from the old operands (R172, decision D13): with
`x = 0xF` the result is what VF ends with. -/
def State.writeFlagThenResult (s : State) (x : Nibble) (flag result : Byte) : State := (s.setReg vf flag).setReg x result

end Sys2Proof.Machine
end

