-- ==== Sys2Proof/Machine/Alu.lean ====
section
/-! DEFINITION. Register load, arithmetic, logic, shift and random instructions (spec 42_register_alu.md). Both operands are
read from the state before the step (R172). -/

namespace Sys2Proof.Machine

/-- `6xnn` (R160). -/
def execLdImm (x : Nibble) (nn : Byte) (s : State) : Host.Outcome State Fault Refusal :=
  .next (s.advance.setReg x nn)

/-- `7xnn` (R161): wraps, no flag. -/
def execAddImm (x : Nibble) (nn : Byte) (s : State) : Host.Outcome State Fault Refusal :=
  .next (s.advance.setReg x (s.reg x + nn))

/-- `8xy0` (R162). -/
def execLdReg (x y : Nibble) (s : State) : Host.Outcome State Fault Refusal :=
  .next (s.advance.setReg x (s.reg y))

/-- `8xy1` (R163): no flag. -/
def execOrReg (x y : Nibble) (s : State) : Host.Outcome State Fault Refusal :=
  .next (s.advance.setReg x (s.reg x ||| s.reg y))

/-- `8xy2` (R164): no flag. -/
def execAndReg (x y : Nibble) (s : State) : Host.Outcome State Fault Refusal :=
  .next (s.advance.setReg x (s.reg x &&& s.reg y))

/-- `8xy3` (R165): no flag. -/
def execXorReg (x y : Nibble) (s : State) : Host.Outcome State Fault Refusal :=
  .next (s.advance.setReg x (s.reg x ^^^ s.reg y))

/-- `8xy4` (R166): VF is the carry of the old operands. -/
def execAddReg (x y : Nibble) (s : State) : Host.Outcome State Fault Refusal :=
  .next (s.advance.writeFlagThenResult x (carryFlag (s.reg x) (s.reg y)) (s.reg x + s.reg y))

/-- `8xy5` (R167): `Vx - Vy`, VF is 1 when there is no borrow. -/
def execSub (x y : Nibble) (s : State) : Host.Outcome State Fault Refusal :=
  .next (s.advance.writeFlagThenResult x (noBorrowFlag (s.reg x) (s.reg y)) (s.reg x - s.reg y))

/-- `8xy6` (R168): shifts `Vy`; the old `Vx` is no operand. -/
def execShr (x y : Nibble) (s : State) : Host.Outcome State Fault Refusal :=
  .next (s.advance.writeFlagThenResult x (shiftedOutRight (s.reg y)) (s.reg y >>> 1))

/-- `8xy7` (R169): `Vy - Vx`, VF is 1 when there is no borrow. -/
def execSubn (x y : Nibble) (s : State) : Host.Outcome State Fault Refusal :=
  .next (s.advance.writeFlagThenResult x (noBorrowFlag (s.reg y) (s.reg x)) (s.reg y - s.reg x))

/-- `8xyE` (R170): shifts `Vy`; the old `Vx` is no operand. -/
def execShl (x y : Nibble) (s : State) : Host.Outcome State Fault Refusal :=
  .next (s.advance.writeFlagThenResult x (shiftedOutLeft (s.reg y)) (s.reg y <<< 1))

/-- `Cxnn` (R171): the sampled random byte, masked. -/
def execRnd (x : Nibble) (nn : Byte) (s : State) : Host.Outcome State Fault Refusal :=
  .next (s.advance.setReg x (s.input.rnd &&& nn))

end Sys2Proof.Machine
end

