-- ==== Sys2Proof/Machine/Operands.lean ====
section
/-! DEFINITION. Operand forms: immediates, the register block of `Fx55` and `Fx65`, decimal digits, and the key queries
(spec 30_encoding.md R92, 43_index_and_memory.md R193 to R196, 45_keypad_and_timers.md R230, R234). -/

namespace Sys2Proof.Machine

/-- `zext_16` of an address field (R92). -/
def zextAddr (nnn : Addr) : Word := nnn.setWidth 16

/-- `zext_16` of a byte (R11). -/
def zextByte (b : Byte) : Word := b.setWidth 16

/-- The only memory operand: the address in `I` as a natural number, so that `I + k` is never wrapped (R66, R92). -/
def State.dataAddr (s : State) : Nat := s.i.toNat

/-- `(I + x + 1) mod 65536`: `I` past a block of `x + 1` bytes (R194, R195, decision D18). -/
def State.pastBlock (s : State) (x : Nibble) : Word := s.i + x.setWidth 16 + 1

/-- The bytes `V[0]` to `V[x]` in register order (R194). -/
def State.blockOfRegs (s : State) (x : Nibble) : List Byte :=
  (List.range (x.toNat + 1)).map fun k => s.reg (BitVec.ofNat 4 k)

/-- `V[k], V[k+1], … <-` the bytes in order (R195). -/
def State.loadRegsFrom (s : State) (k : Nat) : List Byte → State
  | [] => s
  | b :: bs => (s.setReg (BitVec.ofNat 4 k) b).loadRegsFrom (k + 1) bs

/-- The hundreds, tens and ones digits of a byte, a byte each (R193). -/
def bcdDigits (b : Byte) : List Byte :=
  [BitVec.ofNat 8 (b.toNat / 100), BitVec.ofNat 8 (b.toNat / 10 % 10), BitVec.ofNat 8 (b.toNat % 10)]

/-- The address `5 * d` of glyph `d`; the whole byte is used (R192). -/
def glyphAddr (b : Byte) : Word := BitVec.ofNat 16 (5 * b.toNat)

/-! ### The keypad -/

/-- `pressed(k)`: bit `k` of the sampled key vector for a key 0 to 15, the environment's draw above (R230, decision D14).
`k` is not reduced. -/
def pressed (inp : StepInput) (k : Byte) : Bool :=
  if k.toNat ≤ 15 then inp.keys.getLsbD k.toNat else inp.absentKey

/-- The numbers of the pressed keys, lowest first. -/
def pressedKeys (keys : Word) : List Nat := (List.range 16).filter fun k => keys.getLsbD k

/-- The key `Fx0A` delivers: some pressed key, which one the environment's draw decides (R234, decision D15). With
`keyChoice = 0` it is the lowest, the simulator default of R234. -/
def deliveredKey (inp : StepInput) : Byte :=
  let ks := pressedKeys inp.keys
  BitVec.ofNat 8 (ks.getD (inp.keyChoice % ks.length) 0)

end Sys2Proof.Machine
end

