-- ==== Sys2Proof/Machine/Control.lean ====
section
/-! DEFINITION. Control transfer (spec 41_control_transfer.md). A meaning starts from the state before the step, with `PC`
at the instruction's own address `ipc`, and advances it itself (40_fetch_decode_step.md R122). -/

namespace Sys2Proof.Machine

/-- `00EE` (R142): `pc <- Pop()`, StackUnderflow(ipc) on an empty stack. -/
def execRet (s : State) : Host.Outcome State Fault Refusal :=
  finish s ((s.pop s.pc).map fun p => p.2.setPc p.1)

/-- `1nnn` (R140). -/
def execJp (nnn : Addr) (s : State) : Host.Outcome State Fault Refusal :=
  .next (s.setPc (zextAddr nnn))

/-- `2nnn` (R141): pushes the advanced `pc`, StackOverflow(ipc) when the stack is full. -/
def execCall (nnn : Addr) (s : State) : Host.Outcome State Fault Refusal :=
  finish s ((s.advance.push s.pc s.advance.pc).map fun t => t.setPc (zextAddr nnn))

/-- `Bnnn` (R143): `nnn + V[0]`, not masked. -/
def execJpV0 (nnn : Addr) (s : State) : Host.Outcome State Fault Refusal :=
  .next (s.setPc (zextAddr nnn + zextByte (s.reg 0)))

/-- `3xnn` (R144). -/
def execSeImm (x : Nibble) (nn : Byte) (s : State) : Host.Outcome State Fault Refusal :=
  .next (s.advance.skipIf (decide (s.reg x = nn)))

/-- `4xnn` (R145). -/
def execSneImm (x : Nibble) (nn : Byte) (s : State) : Host.Outcome State Fault Refusal :=
  .next (s.advance.skipIf (decide (s.reg x ≠ nn)))

/-- `5xy0` (R146). -/
def execSeReg (x y : Nibble) (s : State) : Host.Outcome State Fault Refusal :=
  .next (s.advance.skipIf (decide (s.reg x = s.reg y)))

/-- `9xy0` (R147). -/
def execSneReg (x y : Nibble) (s : State) : Host.Outcome State Fault Refusal :=
  .next (s.advance.skipIf (decide (s.reg x ≠ s.reg y)))

/-- A word that selects no instruction (40_fetch_decode_step.md R128): `PC` advances, the output `unk` is 1 (R129), nothing
else changes. -/
def execUnrecognised (s : State) : State := s.advance.setUnk true

end Sys2Proof.Machine
end

