-- ==== Sys2Proof/Machine/Display.lean ====
section
/-! DEFINITION. The display, the XOR-blit engine and the two display instructions (spec 44_display.md). A row is 64 bits, its
most significant bit column 0; the blit works on a row at once. -/

namespace Sys2Proof.Machine

/-- `DISP[r][c]`; off the display nothing is lit (10_state.md R28). -/
def pixel (d : Vector (BitVec 64) 32) (r c : Nat) : Bool :=
  if h : r < 32 then (d[r]).getMsbD c else false

/-- The display with every pixel 0 (R210). -/
def blankDisplay : Vector (BitVec 64) 32 := Vector.replicate 32 0

/-- A sprite byte as bits of a display row with its leftmost pixel, bit 7, at column `oc` (R211). Columns above 63 fall off
the right edge: clipped, not wrapped (R212, conflict C1, decision D11). -/
def spriteRow (b : Byte) (oc : Nat) : BitVec 64 := (b.setWidth 64 <<< 56) >>> oc

/-- The blit of R212: sprite row after sprite row from display row `row` down, each XORed into its display row; a row above
31 is skipped. Answers the display and whether some lit pixel was turned off (R213). -/
def blit (d : Vector (BitVec 64) 32) (row oc : Nat) : List Byte → Vector (BitVec 64) 32 × Bool
  | [] => (d, false)
  | b :: bs =>
    if h : row < 32 then
      let r := blit (d.set row (d[row] ^^^ spriteRow b oc)) (row + 1) oc bs
      (r.1, decide (d[row] &&& spriteRow b oc ≠ 0) || r.2)
    else blit d (row + 1) oc bs

/-- `00E0` (R210). -/
def execCls (s : State) : Host.Outcome State Fault Refusal :=
  .next (s.advance.setDisp blankDisplay)

/-- `Dxyn` (R212): column `V[x]`, row `V[y]` (decision D10), both read before VF is written (R216); all `n` bytes are read
before anything is drawn (decision D25); VF is written by every draw that does not fault. -/
def execDrw (x y n : Nibble) (s : State) : Host.Outcome State Fault Refusal :=
  finish s ((s.readBytes s.dataAddr n.toNat).map fun bs =>
    let r := blit s.disp (s.reg y).toNat (s.reg x).toNat bs
    (s.advance.setDisp r.1).setReg vf (collisionFlag r.2))

end Sys2Proof.Machine
end

