-- ==== Sys2Proof/Machine/IndexMemory.lean ====
section
/-! DEFINITION. Address register and memory instructions (spec 43_index_and_memory.md). -/

namespace Sys2Proof.Machine

/-- `Annn` (R190). -/
def execLdI (nnn : Addr) (s : State) : Host.Outcome State Fault Refusal :=
  .next (s.advance.setI (zextAddr nnn))

/-- `Fx1E` (R191): modulo 65536, no flag, no fault. -/
def execAddI (x : Nibble) (s : State) : Host.Outcome State Fault Refusal :=
  .next (s.advance.setI (s.i + zextByte (s.reg x)))

/-- `Fx29` (R192). -/
def execLdF (x : Nibble) (s : State) : Host.Outcome State Fault Refusal :=
  .next (s.advance.setI (glyphAddr (s.reg x)))

/-- `Fx33` (R193): three digits from `I` up, all or none (R196). -/
def execLdB (x : Nibble) (s : State) : Host.Outcome State Fault Refusal :=
  finish s (s.advance.writeBytes s.dataAddr (bcdDigits (s.reg x)))

/-- `Fx55` (R194): `V[0]` to `V[x]` from `I` up, all or none (R196), and `I` past the block. -/
def execStRegs (x : Nibble) (s : State) : Host.Outcome State Fault Refusal :=
  finish s ((s.advance.writeBytes s.dataAddr (s.blockOfRegs x)).map fun t => t.setI (s.pastBlock x))

/-- `Fx65` (R195): all bytes are read first, then `V[0]` to `V[x]` are written, and `I` is past the block. -/
def execLdRegs (x : Nibble) (s : State) : Host.Outcome State Fault Refusal :=
  finish s ((s.readBytes s.dataAddr (x.toNat + 1)).map fun bs =>
    (s.advance.loadRegsFrom 0 bs).setI (s.pastBlock x))

end Sys2Proof.Machine
end

