-- ==== Sys2Proof/Machine/KeypadTimers.lean ====
section
/-! DEFINITION. Keypad and timer instructions (spec 45_keypad_and_timers.md). -/

namespace Sys2Proof.Machine

/-- `Ex9E` (R231). -/
def execSkp (x : Nibble) (s : State) : Host.Outcome State Fault Refusal :=
  .next (s.advance.skipIf (pressed s.input (s.reg x)))

/-- `ExA1` (R232). -/
def execSknp (x : Nibble) (s : State) : Host.Outcome State Fault Refusal :=
  .next (s.advance.skipIf (!pressed s.input (s.reg x)))

/-- `Fx07` (R233). -/
def execLdVxDt (x : Nibble) (s : State) : Host.Outcome State Fault Refusal :=
  .next (s.advance.setReg x s.dt)

/-- `Fx0A` (R234): with no key pressed `PC` goes back to this instruction; else `V[x]` receives a pressed key's number. That
the key is delivered in `V[x]` is PRESUMED by the spec (GK3, decision D15; assumption log 16). -/
def execLdVxK (x : Nibble) (s : State) : Host.Outcome State Fault Refusal :=
  .next (if s.input.keys = 0 then s.advance.rewind else s.advance.setReg x (deliveredKey s.input))

/-- `Fx15` (R235). -/
def execLdDtVx (x : Nibble) (s : State) : Host.Outcome State Fault Refusal :=
  .next (s.advance.setDt (s.reg x))

/-- `Fx18` (R236). -/
def execLdStVx (x : Nibble) (s : State) : Host.Outcome State Fault Refusal :=
  .next (s.advance.setSt (s.reg x))

end Sys2Proof.Machine
end

