-- ==== Sys2Proof/Machine/Events.lean ====
section
/-! DEFINITION. The three events (spec 10_state.md R38 to R42): STEP with its fetch and decode (40_fetch_decode_step.md R120
to R129), TICK, RESET (70_reset_and_hazards.md R290 to R293), and which event comes next. -/

namespace Sys2Proof.Machine

/-! ### STEP -/

/-- The fetch phase (R121): faults with AddressOutOfRange(PC) when `PC > 4094`, before either byte is read; else the two bytes
at `PC` and `PC + 1`, high byte first (R67), whatever the parity of `PC` (R69). -/
def State.fetch (s : State) : Except Fault Word :=
  if 4094 < s.pc.toNat then .error (.addressOutOfRange s.pc.toNat)
  else .ok (wordOfBytes (s.byteAt s.pc.toNat) (s.byteAt (s.pc.toNat + 1)))

/-- What a STEP does before its fetch: the inputs are sampled (R35) and the output `unk` drops (R129). -/
def State.sample (s : State) (inp : StepInput) : State := (s.setInput inp).setUnk false

/-- One STEP (R120): nothing when halted (60_exceptions.md R256), the fetch fault, the no-op of a word that selects no
instruction (R128), or the instruction the word selects. -/
def stepUnit (inp : StepInput) (s : State) : Host.Outcome State Fault Refusal :=
  if s.fault.code ≠ .noFault then .next (s.sample inp)
  else
    match (s.sample inp).fetch with
    | .error f => .next ((s.sample inp).takeFault f)
    | .ok w =>
      match decodeWord w with
      | .ok i => exec i (s.sample inp)
      | .error _ => .next (execUnrecognised (s.sample inp))

/-! ### TICK -/

/-- A timer counts toward 0 and stops there (R39). -/
def countDown (b : Byte) : Byte := if b = 0 then 0 else b - 1

/-- TICK: both timers, each on its own, in every state (R39, decision D23). -/
def State.tick (s : State) : State := (s.setDt (countDown s.dt)).setSt (countDown s.st)

/-! ### RESET -/

/-- The state with every piece at its reset value and no image loaded; the parameters and what the environment still has to
do are kept (R290, R293). -/
def State.cleared (s : State) : State :=
  { State.reset with cfg := s.cfg, schedule := s.schedule, draws := s.draws }

/-- RESET(image) (R290): with an image that fits, memory is font, zeros and, from 0x200 up, the image (20_memory.md R63); with one that does not, no byte of it is
loaded and the machine is halted with ImageTooLarge (R292, decision D26). -/
def State.resetWith (s : State) (image : List Byte) : State :=
  if image.length + 0x200 ≤ 4096 then
    s.cleared.setMem (Memory.writeAll s.cfg.font [] 0x200 image)
  else s.cleared.takeFault (.imageTooLarge image.length)

/-! ### Which event comes next -/

/-- The next event and the state with it taken off the schedule. With the schedule run out it is a free event (R40; assumption
log 2). -/
def State.nextEvent (s : State) : Event × State :=
  match s.schedule with
  | e :: rest => (e, s.setSchedule rest)
  | [] => (Config.freeEvent s.draws, s.setDraws (s.draws + 1))

/-- One event (R38, R39, R42), atomic (R41). -/
def runEvent (e : Event) (s : State) : Host.Outcome State Fault Refusal :=
  match e with
  | .step inp => stepUnit inp s
  | .tick => .next s.tick
  | .reset image => .next (s.resetWith image)

/-! ### Placing an instruction to run next -/

/-- Whether an event is a STEP. -/
def Event.isStep : Event → Bool
  | .step _ => true
  | .tick => false
  | .reset _ => false

/-- The same state with a STEP as its next event: the TICKs and RESETs before the first STEP of the schedule are dropped, and a
schedule without a STEP becomes one STEP with free inputs. -/
def State.stepNext (s : State) : State :=
  match s.schedule.dropWhile fun e => !e.isStep with
  | e :: rest => s.setSchedule (e :: rest)
  | [] => (s.setSchedule [.step (Config.freeInput s.draws)]).setDraws (s.draws + 1)

/-- The state in which the very next model step fetches and runs `w`: `w` lies at `PC` and `PC + 1` and the next event is a STEP.
Only where the fetch needs it, a `PC` above 4094 is set to the entry point 0x200 and FAULT is cleared (a halted machine fetches
nothing) (assumption log 21). -/
def State.placeWord (s : State) (w : Word) : State :=
  let pc : Word := if 4094 < s.pc.toNat then 0x200 else s.pc
  let m := Memory.writeAll s.cfg.font s.mem pc.toNat (bytesOfWord w)
  let f : FaultReg := if s.fault.code = .noFault then s.fault else ⟨.noFault, 0⟩
  (((s.setPc pc).setMem m).setFault f).stepNext

end Sys2Proof.Machine
end

