-- ==== Sys2Proof/Machine/Step.lean ====
section
/-! DEFINITION. One step of the model: the next event of the schedule (spec 10_state.md R38 to R42). -/

namespace Sys2Proof.Machine

/-- Takes the next event and runs it. -/
def step (s : State) : Host.Outcome State Fault Refusal := runEvent s.nextEvent.1 s.nextEvent.2

/-- `s` with the instruction whose bits are `w` (numbered as spec/opcode_table.json numbers them) placed so that the very
next step fetches and runs it. -/
def State.withFetchWord (s : State) (nbits w : Nat) : State := s.placeWord (tableWord nbits w)

end Sys2Proof.Machine
end

