-- ==== Sys2Proof/Laws/State.lean ====
section
/-! SUPPORT. One lemma per field (and per read) per update of State, true by rfl, so that no proof unfolds a record update. -/

namespace Sys2Proof.Machine

/-! ### setReg -/

@[simp] theorem State.setReg_cfg (s : State) (k : Nibble) (b : Byte) : (s.setReg k b).cfg = s.cfg := rfl
@[simp] theorem State.setReg_mem (s : State) (k : Nibble) (b : Byte) : (s.setReg k b).mem = s.mem := rfl
@[simp] theorem State.setReg_i (s : State) (k : Nibble) (b : Byte) : (s.setReg k b).i = s.i := rfl
@[simp] theorem State.setReg_pc (s : State) (k : Nibble) (b : Byte) : (s.setReg k b).pc = s.pc := rfl
@[simp] theorem State.setReg_dt (s : State) (k : Nibble) (b : Byte) : (s.setReg k b).dt = s.dt := rfl
@[simp] theorem State.setReg_st (s : State) (k : Nibble) (b : Byte) : (s.setReg k b).st = s.st := rfl
@[simp] theorem State.setReg_stack (s : State) (k : Nibble) (b : Byte) : (s.setReg k b).stack = s.stack := rfl
@[simp] theorem State.setReg_disp (s : State) (k : Nibble) (b : Byte) : (s.setReg k b).disp = s.disp := rfl
@[simp] theorem State.setReg_fault (s : State) (k : Nibble) (b : Byte) : (s.setReg k b).fault = s.fault := rfl
@[simp] theorem State.setReg_unk (s : State) (k : Nibble) (b : Byte) : (s.setReg k b).unk = s.unk := rfl
@[simp] theorem State.setReg_input (s : State) (k : Nibble) (b : Byte) : (s.setReg k b).input = s.input := rfl
@[simp] theorem State.setReg_schedule (s : State) (k : Nibble) (b : Byte) : (s.setReg k b).schedule = s.schedule := rfl
@[simp] theorem State.setReg_draws (s : State) (k : Nibble) (b : Byte) : (s.setReg k b).draws = s.draws := rfl
@[simp] theorem State.setReg_byteAt (s : State) (k : Nibble) (b : Byte) (a : Nat) : (s.setReg k b).byteAt a = s.byteAt a := rfl
@[simp] theorem State.setReg_memRead (s : State) (k : Nibble) (b : Byte) (a : Nat) : (s.setReg k b).memRead a = s.memRead a := rfl

/-! ### setI -/

@[simp] theorem State.setI_cfg (s : State) (w : Word) : (s.setI w).cfg = s.cfg := rfl
@[simp] theorem State.setI_mem (s : State) (w : Word) : (s.setI w).mem = s.mem := rfl
@[simp] theorem State.setI_v (s : State) (w : Word) : (s.setI w).v = s.v := rfl
@[simp] theorem State.setI_i (s : State) (w : Word) : (s.setI w).i = w := rfl
@[simp] theorem State.setI_pc (s : State) (w : Word) : (s.setI w).pc = s.pc := rfl
@[simp] theorem State.setI_dt (s : State) (w : Word) : (s.setI w).dt = s.dt := rfl
@[simp] theorem State.setI_st (s : State) (w : Word) : (s.setI w).st = s.st := rfl
@[simp] theorem State.setI_stack (s : State) (w : Word) : (s.setI w).stack = s.stack := rfl
@[simp] theorem State.setI_disp (s : State) (w : Word) : (s.setI w).disp = s.disp := rfl
@[simp] theorem State.setI_fault (s : State) (w : Word) : (s.setI w).fault = s.fault := rfl
@[simp] theorem State.setI_unk (s : State) (w : Word) : (s.setI w).unk = s.unk := rfl
@[simp] theorem State.setI_input (s : State) (w : Word) : (s.setI w).input = s.input := rfl
@[simp] theorem State.setI_schedule (s : State) (w : Word) : (s.setI w).schedule = s.schedule := rfl
@[simp] theorem State.setI_draws (s : State) (w : Word) : (s.setI w).draws = s.draws := rfl
@[simp] theorem State.setI_reg (s : State) (w : Word) (j : Nibble) : (s.setI w).reg j = s.reg j := rfl
@[simp] theorem State.setI_byteAt (s : State) (w : Word) (a : Nat) : (s.setI w).byteAt a = s.byteAt a := rfl
@[simp] theorem State.setI_memRead (s : State) (w : Word) (a : Nat) : (s.setI w).memRead a = s.memRead a := rfl

/-! ### setPc -/

@[simp] theorem State.setPc_cfg (s : State) (w : Word) : (s.setPc w).cfg = s.cfg := rfl
@[simp] theorem State.setPc_mem (s : State) (w : Word) : (s.setPc w).mem = s.mem := rfl
@[simp] theorem State.setPc_v (s : State) (w : Word) : (s.setPc w).v = s.v := rfl
@[simp] theorem State.setPc_i (s : State) (w : Word) : (s.setPc w).i = s.i := rfl
@[simp] theorem State.setPc_pc (s : State) (w : Word) : (s.setPc w).pc = w := rfl
@[simp] theorem State.setPc_dt (s : State) (w : Word) : (s.setPc w).dt = s.dt := rfl
@[simp] theorem State.setPc_st (s : State) (w : Word) : (s.setPc w).st = s.st := rfl
@[simp] theorem State.setPc_stack (s : State) (w : Word) : (s.setPc w).stack = s.stack := rfl
@[simp] theorem State.setPc_disp (s : State) (w : Word) : (s.setPc w).disp = s.disp := rfl
@[simp] theorem State.setPc_fault (s : State) (w : Word) : (s.setPc w).fault = s.fault := rfl
@[simp] theorem State.setPc_unk (s : State) (w : Word) : (s.setPc w).unk = s.unk := rfl
@[simp] theorem State.setPc_input (s : State) (w : Word) : (s.setPc w).input = s.input := rfl
@[simp] theorem State.setPc_schedule (s : State) (w : Word) : (s.setPc w).schedule = s.schedule := rfl
@[simp] theorem State.setPc_draws (s : State) (w : Word) : (s.setPc w).draws = s.draws := rfl
@[simp] theorem State.setPc_reg (s : State) (w : Word) (j : Nibble) : (s.setPc w).reg j = s.reg j := rfl
@[simp] theorem State.setPc_byteAt (s : State) (w : Word) (a : Nat) : (s.setPc w).byteAt a = s.byteAt a := rfl
@[simp] theorem State.setPc_memRead (s : State) (w : Word) (a : Nat) : (s.setPc w).memRead a = s.memRead a := rfl

/-! ### setDt -/

@[simp] theorem State.setDt_cfg (s : State) (b : Byte) : (s.setDt b).cfg = s.cfg := rfl
@[simp] theorem State.setDt_mem (s : State) (b : Byte) : (s.setDt b).mem = s.mem := rfl
@[simp] theorem State.setDt_v (s : State) (b : Byte) : (s.setDt b).v = s.v := rfl
@[simp] theorem State.setDt_i (s : State) (b : Byte) : (s.setDt b).i = s.i := rfl
@[simp] theorem State.setDt_pc (s : State) (b : Byte) : (s.setDt b).pc = s.pc := rfl
@[simp] theorem State.setDt_dt (s : State) (b : Byte) : (s.setDt b).dt = b := rfl
@[simp] theorem State.setDt_st (s : State) (b : Byte) : (s.setDt b).st = s.st := rfl
@[simp] theorem State.setDt_stack (s : State) (b : Byte) : (s.setDt b).stack = s.stack := rfl
@[simp] theorem State.setDt_disp (s : State) (b : Byte) : (s.setDt b).disp = s.disp := rfl
@[simp] theorem State.setDt_fault (s : State) (b : Byte) : (s.setDt b).fault = s.fault := rfl
@[simp] theorem State.setDt_unk (s : State) (b : Byte) : (s.setDt b).unk = s.unk := rfl
@[simp] theorem State.setDt_input (s : State) (b : Byte) : (s.setDt b).input = s.input := rfl
@[simp] theorem State.setDt_schedule (s : State) (b : Byte) : (s.setDt b).schedule = s.schedule := rfl
@[simp] theorem State.setDt_draws (s : State) (b : Byte) : (s.setDt b).draws = s.draws := rfl
@[simp] theorem State.setDt_reg (s : State) (b : Byte) (j : Nibble) : (s.setDt b).reg j = s.reg j := rfl
@[simp] theorem State.setDt_byteAt (s : State) (b : Byte) (a : Nat) : (s.setDt b).byteAt a = s.byteAt a := rfl
@[simp] theorem State.setDt_memRead (s : State) (b : Byte) (a : Nat) : (s.setDt b).memRead a = s.memRead a := rfl

/-! ### setSt -/

@[simp] theorem State.setSt_cfg (s : State) (b : Byte) : (s.setSt b).cfg = s.cfg := rfl
@[simp] theorem State.setSt_mem (s : State) (b : Byte) : (s.setSt b).mem = s.mem := rfl
@[simp] theorem State.setSt_v (s : State) (b : Byte) : (s.setSt b).v = s.v := rfl
@[simp] theorem State.setSt_i (s : State) (b : Byte) : (s.setSt b).i = s.i := rfl
@[simp] theorem State.setSt_pc (s : State) (b : Byte) : (s.setSt b).pc = s.pc := rfl
@[simp] theorem State.setSt_dt (s : State) (b : Byte) : (s.setSt b).dt = s.dt := rfl
@[simp] theorem State.setSt_st (s : State) (b : Byte) : (s.setSt b).st = b := rfl
@[simp] theorem State.setSt_stack (s : State) (b : Byte) : (s.setSt b).stack = s.stack := rfl
@[simp] theorem State.setSt_disp (s : State) (b : Byte) : (s.setSt b).disp = s.disp := rfl
@[simp] theorem State.setSt_fault (s : State) (b : Byte) : (s.setSt b).fault = s.fault := rfl
@[simp] theorem State.setSt_unk (s : State) (b : Byte) : (s.setSt b).unk = s.unk := rfl
@[simp] theorem State.setSt_input (s : State) (b : Byte) : (s.setSt b).input = s.input := rfl
@[simp] theorem State.setSt_schedule (s : State) (b : Byte) : (s.setSt b).schedule = s.schedule := rfl
@[simp] theorem State.setSt_draws (s : State) (b : Byte) : (s.setSt b).draws = s.draws := rfl
@[simp] theorem State.setSt_reg (s : State) (b : Byte) (j : Nibble) : (s.setSt b).reg j = s.reg j := rfl
@[simp] theorem State.setSt_byteAt (s : State) (b : Byte) (a : Nat) : (s.setSt b).byteAt a = s.byteAt a := rfl
@[simp] theorem State.setSt_memRead (s : State) (b : Byte) (a : Nat) : (s.setSt b).memRead a = s.memRead a := rfl

/-! ### setStack -/

@[simp] theorem State.setStack_cfg (s : State) (l : List Word) : (s.setStack l).cfg = s.cfg := rfl
@[simp] theorem State.setStack_mem (s : State) (l : List Word) : (s.setStack l).mem = s.mem := rfl
@[simp] theorem State.setStack_v (s : State) (l : List Word) : (s.setStack l).v = s.v := rfl
@[simp] theorem State.setStack_i (s : State) (l : List Word) : (s.setStack l).i = s.i := rfl
@[simp] theorem State.setStack_pc (s : State) (l : List Word) : (s.setStack l).pc = s.pc := rfl
@[simp] theorem State.setStack_dt (s : State) (l : List Word) : (s.setStack l).dt = s.dt := rfl
@[simp] theorem State.setStack_st (s : State) (l : List Word) : (s.setStack l).st = s.st := rfl
@[simp] theorem State.setStack_stack (s : State) (l : List Word) : (s.setStack l).stack = l := rfl
@[simp] theorem State.setStack_disp (s : State) (l : List Word) : (s.setStack l).disp = s.disp := rfl
@[simp] theorem State.setStack_fault (s : State) (l : List Word) : (s.setStack l).fault = s.fault := rfl
@[simp] theorem State.setStack_unk (s : State) (l : List Word) : (s.setStack l).unk = s.unk := rfl
@[simp] theorem State.setStack_input (s : State) (l : List Word) : (s.setStack l).input = s.input := rfl
@[simp] theorem State.setStack_schedule (s : State) (l : List Word) : (s.setStack l).schedule = s.schedule := rfl
@[simp] theorem State.setStack_draws (s : State) (l : List Word) : (s.setStack l).draws = s.draws := rfl
@[simp] theorem State.setStack_reg (s : State) (l : List Word) (j : Nibble) : (s.setStack l).reg j = s.reg j := rfl
@[simp] theorem State.setStack_byteAt (s : State) (l : List Word) (a : Nat) : (s.setStack l).byteAt a = s.byteAt a := rfl
@[simp] theorem State.setStack_memRead (s : State) (l : List Word) (a : Nat) : (s.setStack l).memRead a = s.memRead a := rfl

/-! ### setDisp -/

@[simp] theorem State.setDisp_cfg (s : State) (d : Vector (BitVec 64) 32) : (s.setDisp d).cfg = s.cfg := rfl
@[simp] theorem State.setDisp_mem (s : State) (d : Vector (BitVec 64) 32) : (s.setDisp d).mem = s.mem := rfl
@[simp] theorem State.setDisp_v (s : State) (d : Vector (BitVec 64) 32) : (s.setDisp d).v = s.v := rfl
@[simp] theorem State.setDisp_i (s : State) (d : Vector (BitVec 64) 32) : (s.setDisp d).i = s.i := rfl
@[simp] theorem State.setDisp_pc (s : State) (d : Vector (BitVec 64) 32) : (s.setDisp d).pc = s.pc := rfl
@[simp] theorem State.setDisp_dt (s : State) (d : Vector (BitVec 64) 32) : (s.setDisp d).dt = s.dt := rfl
@[simp] theorem State.setDisp_st (s : State) (d : Vector (BitVec 64) 32) : (s.setDisp d).st = s.st := rfl
@[simp] theorem State.setDisp_stack (s : State) (d : Vector (BitVec 64) 32) : (s.setDisp d).stack = s.stack := rfl
@[simp] theorem State.setDisp_disp (s : State) (d : Vector (BitVec 64) 32) : (s.setDisp d).disp = d := rfl
@[simp] theorem State.setDisp_fault (s : State) (d : Vector (BitVec 64) 32) : (s.setDisp d).fault = s.fault := rfl
@[simp] theorem State.setDisp_unk (s : State) (d : Vector (BitVec 64) 32) : (s.setDisp d).unk = s.unk := rfl
@[simp] theorem State.setDisp_input (s : State) (d : Vector (BitVec 64) 32) : (s.setDisp d).input = s.input := rfl
@[simp] theorem State.setDisp_schedule (s : State) (d : Vector (BitVec 64) 32) : (s.setDisp d).schedule = s.schedule := rfl
@[simp] theorem State.setDisp_draws (s : State) (d : Vector (BitVec 64) 32) : (s.setDisp d).draws = s.draws := rfl
@[simp] theorem State.setDisp_reg (s : State) (d : Vector (BitVec 64) 32) (j : Nibble) : (s.setDisp d).reg j = s.reg j := rfl
@[simp] theorem State.setDisp_byteAt (s : State) (d : Vector (BitVec 64) 32) (a : Nat) : (s.setDisp d).byteAt a = s.byteAt a := rfl
@[simp] theorem State.setDisp_memRead (s : State) (d : Vector (BitVec 64) 32) (a : Nat) : (s.setDisp d).memRead a = s.memRead a := rfl

/-! ### setMem -/

@[simp] theorem State.setMem_cfg (s : State) (m : List Host.Cell) : (s.setMem m).cfg = s.cfg := rfl
@[simp] theorem State.setMem_mem (s : State) (m : List Host.Cell) : (s.setMem m).mem = m := rfl
@[simp] theorem State.setMem_v (s : State) (m : List Host.Cell) : (s.setMem m).v = s.v := rfl
@[simp] theorem State.setMem_i (s : State) (m : List Host.Cell) : (s.setMem m).i = s.i := rfl
@[simp] theorem State.setMem_pc (s : State) (m : List Host.Cell) : (s.setMem m).pc = s.pc := rfl
@[simp] theorem State.setMem_dt (s : State) (m : List Host.Cell) : (s.setMem m).dt = s.dt := rfl
@[simp] theorem State.setMem_st (s : State) (m : List Host.Cell) : (s.setMem m).st = s.st := rfl
@[simp] theorem State.setMem_stack (s : State) (m : List Host.Cell) : (s.setMem m).stack = s.stack := rfl
@[simp] theorem State.setMem_disp (s : State) (m : List Host.Cell) : (s.setMem m).disp = s.disp := rfl
@[simp] theorem State.setMem_fault (s : State) (m : List Host.Cell) : (s.setMem m).fault = s.fault := rfl
@[simp] theorem State.setMem_unk (s : State) (m : List Host.Cell) : (s.setMem m).unk = s.unk := rfl
@[simp] theorem State.setMem_input (s : State) (m : List Host.Cell) : (s.setMem m).input = s.input := rfl
@[simp] theorem State.setMem_schedule (s : State) (m : List Host.Cell) : (s.setMem m).schedule = s.schedule := rfl
@[simp] theorem State.setMem_draws (s : State) (m : List Host.Cell) : (s.setMem m).draws = s.draws := rfl
@[simp] theorem State.setMem_reg (s : State) (m : List Host.Cell) (j : Nibble) : (s.setMem m).reg j = s.reg j := rfl

/-! ### setFault -/

@[simp] theorem State.setFault_cfg (s : State) (f : FaultReg) : (s.setFault f).cfg = s.cfg := rfl
@[simp] theorem State.setFault_mem (s : State) (f : FaultReg) : (s.setFault f).mem = s.mem := rfl
@[simp] theorem State.setFault_v (s : State) (f : FaultReg) : (s.setFault f).v = s.v := rfl
@[simp] theorem State.setFault_i (s : State) (f : FaultReg) : (s.setFault f).i = s.i := rfl
@[simp] theorem State.setFault_pc (s : State) (f : FaultReg) : (s.setFault f).pc = s.pc := rfl
@[simp] theorem State.setFault_dt (s : State) (f : FaultReg) : (s.setFault f).dt = s.dt := rfl
@[simp] theorem State.setFault_st (s : State) (f : FaultReg) : (s.setFault f).st = s.st := rfl
@[simp] theorem State.setFault_stack (s : State) (f : FaultReg) : (s.setFault f).stack = s.stack := rfl
@[simp] theorem State.setFault_disp (s : State) (f : FaultReg) : (s.setFault f).disp = s.disp := rfl
@[simp] theorem State.setFault_fault (s : State) (f : FaultReg) : (s.setFault f).fault = f := rfl
@[simp] theorem State.setFault_unk (s : State) (f : FaultReg) : (s.setFault f).unk = s.unk := rfl
@[simp] theorem State.setFault_input (s : State) (f : FaultReg) : (s.setFault f).input = s.input := rfl
@[simp] theorem State.setFault_schedule (s : State) (f : FaultReg) : (s.setFault f).schedule = s.schedule := rfl
@[simp] theorem State.setFault_draws (s : State) (f : FaultReg) : (s.setFault f).draws = s.draws := rfl
@[simp] theorem State.setFault_reg (s : State) (f : FaultReg) (j : Nibble) : (s.setFault f).reg j = s.reg j := rfl
@[simp] theorem State.setFault_byteAt (s : State) (f : FaultReg) (a : Nat) : (s.setFault f).byteAt a = s.byteAt a := rfl
@[simp] theorem State.setFault_memRead (s : State) (f : FaultReg) (a : Nat) : (s.setFault f).memRead a = s.memRead a := rfl

/-! ### setUnk -/

@[simp] theorem State.setUnk_cfg (s : State) (b : Bool) : (s.setUnk b).cfg = s.cfg := rfl
@[simp] theorem State.setUnk_mem (s : State) (b : Bool) : (s.setUnk b).mem = s.mem := rfl
@[simp] theorem State.setUnk_v (s : State) (b : Bool) : (s.setUnk b).v = s.v := rfl
@[simp] theorem State.setUnk_i (s : State) (b : Bool) : (s.setUnk b).i = s.i := rfl
@[simp] theorem State.setUnk_pc (s : State) (b : Bool) : (s.setUnk b).pc = s.pc := rfl
@[simp] theorem State.setUnk_dt (s : State) (b : Bool) : (s.setUnk b).dt = s.dt := rfl
@[simp] theorem State.setUnk_st (s : State) (b : Bool) : (s.setUnk b).st = s.st := rfl
@[simp] theorem State.setUnk_stack (s : State) (b : Bool) : (s.setUnk b).stack = s.stack := rfl
@[simp] theorem State.setUnk_disp (s : State) (b : Bool) : (s.setUnk b).disp = s.disp := rfl
@[simp] theorem State.setUnk_fault (s : State) (b : Bool) : (s.setUnk b).fault = s.fault := rfl
@[simp] theorem State.setUnk_unk (s : State) (b : Bool) : (s.setUnk b).unk = b := rfl
@[simp] theorem State.setUnk_input (s : State) (b : Bool) : (s.setUnk b).input = s.input := rfl
@[simp] theorem State.setUnk_schedule (s : State) (b : Bool) : (s.setUnk b).schedule = s.schedule := rfl
@[simp] theorem State.setUnk_draws (s : State) (b : Bool) : (s.setUnk b).draws = s.draws := rfl
@[simp] theorem State.setUnk_reg (s : State) (b : Bool) (j : Nibble) : (s.setUnk b).reg j = s.reg j := rfl
@[simp] theorem State.setUnk_byteAt (s : State) (b : Bool) (a : Nat) : (s.setUnk b).byteAt a = s.byteAt a := rfl
@[simp] theorem State.setUnk_memRead (s : State) (b : Bool) (a : Nat) : (s.setUnk b).memRead a = s.memRead a := rfl

/-! ### setInput -/

@[simp] theorem State.setInput_cfg (s : State) (inp : StepInput) : (s.setInput inp).cfg = s.cfg := rfl
@[simp] theorem State.setInput_mem (s : State) (inp : StepInput) : (s.setInput inp).mem = s.mem := rfl
@[simp] theorem State.setInput_v (s : State) (inp : StepInput) : (s.setInput inp).v = s.v := rfl
@[simp] theorem State.setInput_i (s : State) (inp : StepInput) : (s.setInput inp).i = s.i := rfl
@[simp] theorem State.setInput_pc (s : State) (inp : StepInput) : (s.setInput inp).pc = s.pc := rfl
@[simp] theorem State.setInput_dt (s : State) (inp : StepInput) : (s.setInput inp).dt = s.dt := rfl
@[simp] theorem State.setInput_st (s : State) (inp : StepInput) : (s.setInput inp).st = s.st := rfl
@[simp] theorem State.setInput_stack (s : State) (inp : StepInput) : (s.setInput inp).stack = s.stack := rfl
@[simp] theorem State.setInput_disp (s : State) (inp : StepInput) : (s.setInput inp).disp = s.disp := rfl
@[simp] theorem State.setInput_fault (s : State) (inp : StepInput) : (s.setInput inp).fault = s.fault := rfl
@[simp] theorem State.setInput_unk (s : State) (inp : StepInput) : (s.setInput inp).unk = s.unk := rfl
@[simp] theorem State.setInput_input (s : State) (inp : StepInput) : (s.setInput inp).input = inp := rfl
@[simp] theorem State.setInput_schedule (s : State) (inp : StepInput) : (s.setInput inp).schedule = s.schedule := rfl
@[simp] theorem State.setInput_draws (s : State) (inp : StepInput) : (s.setInput inp).draws = s.draws := rfl
@[simp] theorem State.setInput_reg (s : State) (inp : StepInput) (j : Nibble) : (s.setInput inp).reg j = s.reg j := rfl
@[simp] theorem State.setInput_byteAt (s : State) (inp : StepInput) (a : Nat) : (s.setInput inp).byteAt a = s.byteAt a := rfl
@[simp] theorem State.setInput_memRead (s : State) (inp : StepInput) (a : Nat) : (s.setInput inp).memRead a = s.memRead a := rfl

/-! ### setSchedule -/

@[simp] theorem State.setSchedule_cfg (s : State) (l : List Event) : (s.setSchedule l).cfg = s.cfg := rfl
@[simp] theorem State.setSchedule_mem (s : State) (l : List Event) : (s.setSchedule l).mem = s.mem := rfl
@[simp] theorem State.setSchedule_v (s : State) (l : List Event) : (s.setSchedule l).v = s.v := rfl
@[simp] theorem State.setSchedule_i (s : State) (l : List Event) : (s.setSchedule l).i = s.i := rfl
@[simp] theorem State.setSchedule_pc (s : State) (l : List Event) : (s.setSchedule l).pc = s.pc := rfl
@[simp] theorem State.setSchedule_dt (s : State) (l : List Event) : (s.setSchedule l).dt = s.dt := rfl
@[simp] theorem State.setSchedule_st (s : State) (l : List Event) : (s.setSchedule l).st = s.st := rfl
@[simp] theorem State.setSchedule_stack (s : State) (l : List Event) : (s.setSchedule l).stack = s.stack := rfl
@[simp] theorem State.setSchedule_disp (s : State) (l : List Event) : (s.setSchedule l).disp = s.disp := rfl
@[simp] theorem State.setSchedule_fault (s : State) (l : List Event) : (s.setSchedule l).fault = s.fault := rfl
@[simp] theorem State.setSchedule_unk (s : State) (l : List Event) : (s.setSchedule l).unk = s.unk := rfl
@[simp] theorem State.setSchedule_input (s : State) (l : List Event) : (s.setSchedule l).input = s.input := rfl
@[simp] theorem State.setSchedule_schedule (s : State) (l : List Event) : (s.setSchedule l).schedule = l := rfl
@[simp] theorem State.setSchedule_draws (s : State) (l : List Event) : (s.setSchedule l).draws = s.draws := rfl
@[simp] theorem State.setSchedule_reg (s : State) (l : List Event) (j : Nibble) : (s.setSchedule l).reg j = s.reg j := rfl
@[simp] theorem State.setSchedule_byteAt (s : State) (l : List Event) (a : Nat) : (s.setSchedule l).byteAt a = s.byteAt a := rfl
@[simp] theorem State.setSchedule_memRead (s : State) (l : List Event) (a : Nat) : (s.setSchedule l).memRead a = s.memRead a := rfl

/-! ### setDraws -/

@[simp] theorem State.setDraws_cfg (s : State) (n : Nat) : (s.setDraws n).cfg = s.cfg := rfl
@[simp] theorem State.setDraws_mem (s : State) (n : Nat) : (s.setDraws n).mem = s.mem := rfl
@[simp] theorem State.setDraws_v (s : State) (n : Nat) : (s.setDraws n).v = s.v := rfl
@[simp] theorem State.setDraws_i (s : State) (n : Nat) : (s.setDraws n).i = s.i := rfl
@[simp] theorem State.setDraws_pc (s : State) (n : Nat) : (s.setDraws n).pc = s.pc := rfl
@[simp] theorem State.setDraws_dt (s : State) (n : Nat) : (s.setDraws n).dt = s.dt := rfl
@[simp] theorem State.setDraws_st (s : State) (n : Nat) : (s.setDraws n).st = s.st := rfl
@[simp] theorem State.setDraws_stack (s : State) (n : Nat) : (s.setDraws n).stack = s.stack := rfl
@[simp] theorem State.setDraws_disp (s : State) (n : Nat) : (s.setDraws n).disp = s.disp := rfl
@[simp] theorem State.setDraws_fault (s : State) (n : Nat) : (s.setDraws n).fault = s.fault := rfl
@[simp] theorem State.setDraws_unk (s : State) (n : Nat) : (s.setDraws n).unk = s.unk := rfl
@[simp] theorem State.setDraws_input (s : State) (n : Nat) : (s.setDraws n).input = s.input := rfl
@[simp] theorem State.setDraws_schedule (s : State) (n : Nat) : (s.setDraws n).schedule = s.schedule := rfl
@[simp] theorem State.setDraws_draws (s : State) (n : Nat) : (s.setDraws n).draws = n := rfl
@[simp] theorem State.setDraws_reg (s : State) (n : Nat) (j : Nibble) : (s.setDraws n).reg j = s.reg j := rfl
@[simp] theorem State.setDraws_byteAt (s : State) (n : Nat) (a : Nat) : (s.setDraws n).byteAt a = s.byteAt a := rfl
@[simp] theorem State.setDraws_memRead (s : State) (n : Nat) (a : Nat) : (s.setDraws n).memRead a = s.memRead a := rfl

/-! ### advance -/

@[simp] theorem State.advance_cfg (s : State) : (s.advance).cfg = s.cfg := rfl
@[simp] theorem State.advance_mem (s : State) : (s.advance).mem = s.mem := rfl
@[simp] theorem State.advance_v (s : State) : (s.advance).v = s.v := rfl
@[simp] theorem State.advance_i (s : State) : (s.advance).i = s.i := rfl
@[simp] theorem State.advance_pc (s : State) : (s.advance).pc = s.pc + 2 := rfl
@[simp] theorem State.advance_dt (s : State) : (s.advance).dt = s.dt := rfl
@[simp] theorem State.advance_st (s : State) : (s.advance).st = s.st := rfl
@[simp] theorem State.advance_stack (s : State) : (s.advance).stack = s.stack := rfl
@[simp] theorem State.advance_disp (s : State) : (s.advance).disp = s.disp := rfl
@[simp] theorem State.advance_fault (s : State) : (s.advance).fault = s.fault := rfl
@[simp] theorem State.advance_unk (s : State) : (s.advance).unk = s.unk := rfl
@[simp] theorem State.advance_input (s : State) : (s.advance).input = s.input := rfl
@[simp] theorem State.advance_schedule (s : State) : (s.advance).schedule = s.schedule := rfl
@[simp] theorem State.advance_draws (s : State) : (s.advance).draws = s.draws := rfl
@[simp] theorem State.advance_reg (s : State) (j : Nibble) : (s.advance).reg j = s.reg j := rfl
@[simp] theorem State.advance_byteAt (s : State) (a : Nat) : (s.advance).byteAt a = s.byteAt a := rfl
@[simp] theorem State.advance_memRead (s : State) (a : Nat) : (s.advance).memRead a = s.memRead a := rfl

/-! ### rewind -/

@[simp] theorem State.rewind_cfg (s : State) : (s.rewind).cfg = s.cfg := rfl
@[simp] theorem State.rewind_mem (s : State) : (s.rewind).mem = s.mem := rfl
@[simp] theorem State.rewind_v (s : State) : (s.rewind).v = s.v := rfl
@[simp] theorem State.rewind_i (s : State) : (s.rewind).i = s.i := rfl
@[simp] theorem State.rewind_pc (s : State) : (s.rewind).pc = s.pc - 2 := rfl
@[simp] theorem State.rewind_dt (s : State) : (s.rewind).dt = s.dt := rfl
@[simp] theorem State.rewind_st (s : State) : (s.rewind).st = s.st := rfl
@[simp] theorem State.rewind_stack (s : State) : (s.rewind).stack = s.stack := rfl
@[simp] theorem State.rewind_disp (s : State) : (s.rewind).disp = s.disp := rfl
@[simp] theorem State.rewind_fault (s : State) : (s.rewind).fault = s.fault := rfl
@[simp] theorem State.rewind_unk (s : State) : (s.rewind).unk = s.unk := rfl
@[simp] theorem State.rewind_input (s : State) : (s.rewind).input = s.input := rfl
@[simp] theorem State.rewind_schedule (s : State) : (s.rewind).schedule = s.schedule := rfl
@[simp] theorem State.rewind_draws (s : State) : (s.rewind).draws = s.draws := rfl
@[simp] theorem State.rewind_reg (s : State) (j : Nibble) : (s.rewind).reg j = s.reg j := rfl
@[simp] theorem State.rewind_byteAt (s : State) (a : Nat) : (s.rewind).byteAt a = s.byteAt a := rfl
@[simp] theorem State.rewind_memRead (s : State) (a : Nat) : (s.rewind).memRead a = s.memRead a := rfl

/-! ### takeFault -/

@[simp] theorem State.takeFault_cfg (s : State) (f : Fault) : (s.takeFault f).cfg = s.cfg := rfl
@[simp] theorem State.takeFault_mem (s : State) (f : Fault) : (s.takeFault f).mem = s.mem := rfl
@[simp] theorem State.takeFault_v (s : State) (f : Fault) : (s.takeFault f).v = s.v := rfl
@[simp] theorem State.takeFault_i (s : State) (f : Fault) : (s.takeFault f).i = s.i := rfl
@[simp] theorem State.takeFault_pc (s : State) (f : Fault) : (s.takeFault f).pc = s.pc := rfl
@[simp] theorem State.takeFault_dt (s : State) (f : Fault) : (s.takeFault f).dt = s.dt := rfl
@[simp] theorem State.takeFault_st (s : State) (f : Fault) : (s.takeFault f).st = s.st := rfl
@[simp] theorem State.takeFault_stack (s : State) (f : Fault) : (s.takeFault f).stack = s.stack := rfl
@[simp] theorem State.takeFault_disp (s : State) (f : Fault) : (s.takeFault f).disp = s.disp := rfl
@[simp] theorem State.takeFault_fault (s : State) (f : Fault) : (s.takeFault f).fault = ⟨f.code, f.info⟩ := rfl
@[simp] theorem State.takeFault_unk (s : State) (f : Fault) : (s.takeFault f).unk = s.unk := rfl
@[simp] theorem State.takeFault_input (s : State) (f : Fault) : (s.takeFault f).input = s.input := rfl
@[simp] theorem State.takeFault_schedule (s : State) (f : Fault) : (s.takeFault f).schedule = s.schedule := rfl
@[simp] theorem State.takeFault_draws (s : State) (f : Fault) : (s.takeFault f).draws = s.draws := rfl
@[simp] theorem State.takeFault_reg (s : State) (f : Fault) (j : Nibble) : (s.takeFault f).reg j = s.reg j := rfl
@[simp] theorem State.takeFault_byteAt (s : State) (f : Fault) (a : Nat) : (s.takeFault f).byteAt a = s.byteAt a := rfl
@[simp] theorem State.takeFault_memRead (s : State) (f : Fault) (a : Nat) : (s.takeFault f).memRead a = s.memRead a := rfl

/-! ### sample -/

@[simp] theorem State.sample_cfg (s : State) (inp : StepInput) : (s.sample inp).cfg = s.cfg := rfl
@[simp] theorem State.sample_mem (s : State) (inp : StepInput) : (s.sample inp).mem = s.mem := rfl
@[simp] theorem State.sample_v (s : State) (inp : StepInput) : (s.sample inp).v = s.v := rfl
@[simp] theorem State.sample_i (s : State) (inp : StepInput) : (s.sample inp).i = s.i := rfl
@[simp] theorem State.sample_pc (s : State) (inp : StepInput) : (s.sample inp).pc = s.pc := rfl
@[simp] theorem State.sample_dt (s : State) (inp : StepInput) : (s.sample inp).dt = s.dt := rfl
@[simp] theorem State.sample_st (s : State) (inp : StepInput) : (s.sample inp).st = s.st := rfl
@[simp] theorem State.sample_stack (s : State) (inp : StepInput) : (s.sample inp).stack = s.stack := rfl
@[simp] theorem State.sample_disp (s : State) (inp : StepInput) : (s.sample inp).disp = s.disp := rfl
@[simp] theorem State.sample_fault (s : State) (inp : StepInput) : (s.sample inp).fault = s.fault := rfl
@[simp] theorem State.sample_unk (s : State) (inp : StepInput) : (s.sample inp).unk = false := rfl
@[simp] theorem State.sample_input (s : State) (inp : StepInput) : (s.sample inp).input = inp := rfl
@[simp] theorem State.sample_schedule (s : State) (inp : StepInput) : (s.sample inp).schedule = s.schedule := rfl
@[simp] theorem State.sample_draws (s : State) (inp : StepInput) : (s.sample inp).draws = s.draws := rfl
@[simp] theorem State.sample_reg (s : State) (inp : StepInput) (j : Nibble) : (s.sample inp).reg j = s.reg j := rfl
@[simp] theorem State.sample_byteAt (s : State) (inp : StepInput) (a : Nat) : (s.sample inp).byteAt a = s.byteAt a := rfl
@[simp] theorem State.sample_memRead (s : State) (inp : StepInput) (a : Nat) : (s.sample inp).memRead a = s.memRead a := rfl

/-! ### tick -/

@[simp] theorem State.tick_cfg (s : State) : (s.tick).cfg = s.cfg := rfl
@[simp] theorem State.tick_mem (s : State) : (s.tick).mem = s.mem := rfl
@[simp] theorem State.tick_v (s : State) : (s.tick).v = s.v := rfl
@[simp] theorem State.tick_i (s : State) : (s.tick).i = s.i := rfl
@[simp] theorem State.tick_pc (s : State) : (s.tick).pc = s.pc := rfl
@[simp] theorem State.tick_dt (s : State) : (s.tick).dt = countDown s.dt := rfl
@[simp] theorem State.tick_st (s : State) : (s.tick).st = countDown s.st := rfl
@[simp] theorem State.tick_stack (s : State) : (s.tick).stack = s.stack := rfl
@[simp] theorem State.tick_disp (s : State) : (s.tick).disp = s.disp := rfl
@[simp] theorem State.tick_fault (s : State) : (s.tick).fault = s.fault := rfl
@[simp] theorem State.tick_unk (s : State) : (s.tick).unk = s.unk := rfl
@[simp] theorem State.tick_input (s : State) : (s.tick).input = s.input := rfl
@[simp] theorem State.tick_schedule (s : State) : (s.tick).schedule = s.schedule := rfl
@[simp] theorem State.tick_draws (s : State) : (s.tick).draws = s.draws := rfl
@[simp] theorem State.tick_reg (s : State) (j : Nibble) : (s.tick).reg j = s.reg j := rfl
@[simp] theorem State.tick_byteAt (s : State) (a : Nat) : (s.tick).byteAt a = s.byteAt a := rfl
@[simp] theorem State.tick_memRead (s : State) (a : Nat) : (s.tick).memRead a = s.memRead a := rfl

/-! ### skipIf -/

@[simp] theorem State.skipIf_pc (s : State) (c : Bool) : (s.skipIf c).pc = if c then s.pc + 2 else s.pc := by
  cases c <;> rfl
@[simp] theorem State.skipIf_cfg (s : State) (c : Bool) : (s.skipIf c).cfg = s.cfg := by cases c <;> rfl
@[simp] theorem State.skipIf_mem (s : State) (c : Bool) : (s.skipIf c).mem = s.mem := by cases c <;> rfl
@[simp] theorem State.skipIf_v (s : State) (c : Bool) : (s.skipIf c).v = s.v := by cases c <;> rfl
@[simp] theorem State.skipIf_i (s : State) (c : Bool) : (s.skipIf c).i = s.i := by cases c <;> rfl
@[simp] theorem State.skipIf_dt (s : State) (c : Bool) : (s.skipIf c).dt = s.dt := by cases c <;> rfl
@[simp] theorem State.skipIf_st (s : State) (c : Bool) : (s.skipIf c).st = s.st := by cases c <;> rfl
@[simp] theorem State.skipIf_stack (s : State) (c : Bool) : (s.skipIf c).stack = s.stack := by cases c <;> rfl
@[simp] theorem State.skipIf_disp (s : State) (c : Bool) : (s.skipIf c).disp = s.disp := by cases c <;> rfl
@[simp] theorem State.skipIf_fault (s : State) (c : Bool) : (s.skipIf c).fault = s.fault := by cases c <;> rfl
@[simp] theorem State.skipIf_unk (s : State) (c : Bool) : (s.skipIf c).unk = s.unk := by cases c <;> rfl
@[simp] theorem State.skipIf_input (s : State) (c : Bool) : (s.skipIf c).input = s.input := by cases c <;> rfl
@[simp] theorem State.skipIf_schedule (s : State) (c : Bool) : (s.skipIf c).schedule = s.schedule := by cases c <;> rfl
@[simp] theorem State.skipIf_draws (s : State) (c : Bool) : (s.skipIf c).draws = s.draws := by cases c <;> rfl
@[simp] theorem State.skipIf_reg (s : State) (c : Bool) (j : Nibble) : (s.skipIf c).reg j = s.reg j := by cases c <;> rfl
@[simp] theorem State.skipIf_byteAt (s : State) (c : Bool) (a : Nat) : (s.skipIf c).byteAt a = s.byteAt a := by cases c <;> rfl
@[simp] theorem State.skipIf_memRead (s : State) (c : Bool) (a : Nat) : (s.skipIf c).memRead a = s.memRead a := by cases c <;> rfl

/-! ### Registers -/

/-- Reading a register after writing one. -/
theorem State.reg_setReg (s : State) (k j : Nibble) (b : Byte) :
    (s.setReg k b).reg j = if j = k then b else s.reg j := by
  simp only [State.reg, State.setReg, Vector.getElem_set]
  by_cases h : j = k
  · simp [h]
  · have : k.toNat ≠ j.toNat := fun e => h (BitVec.eq_of_toNat_eq e.symm)
    simp [h, this]

@[simp] theorem State.reg_setReg_self (s : State) (k : Nibble) (b : Byte) : (s.setReg k b).reg k = b := by
  simp [State.reg_setReg]

theorem State.reg_setReg_of_ne (s : State) {k j : Nibble} (h : j ≠ k) (b : Byte) :
    (s.setReg k b).reg j = s.reg j := by
  simp [State.reg_setReg, h]

/-- Two register files that read alike are one. -/
theorem State.v_ext {s t : State} (h : ∀ k, s.reg k = t.reg k) : s.v = t.v := by
  apply Vector.ext
  intro k hk
  have := h (BitVec.ofNat 4 k)
  simpa [State.reg, Nat.mod_eq_of_lt hk] using this

/-! ### writeFlagThenResult -/

@[simp] theorem State.writeFlagThenResult_cfg (s : State) (x : Nibble) (f b : Byte) : (s.writeFlagThenResult x f b).cfg = s.cfg := rfl
@[simp] theorem State.writeFlagThenResult_mem (s : State) (x : Nibble) (f b : Byte) : (s.writeFlagThenResult x f b).mem = s.mem := rfl
@[simp] theorem State.writeFlagThenResult_i (s : State) (x : Nibble) (f b : Byte) : (s.writeFlagThenResult x f b).i = s.i := rfl
@[simp] theorem State.writeFlagThenResult_pc (s : State) (x : Nibble) (f b : Byte) : (s.writeFlagThenResult x f b).pc = s.pc := rfl
@[simp] theorem State.writeFlagThenResult_dt (s : State) (x : Nibble) (f b : Byte) : (s.writeFlagThenResult x f b).dt = s.dt := rfl
@[simp] theorem State.writeFlagThenResult_st (s : State) (x : Nibble) (f b : Byte) : (s.writeFlagThenResult x f b).st = s.st := rfl
@[simp] theorem State.writeFlagThenResult_stack (s : State) (x : Nibble) (f b : Byte) : (s.writeFlagThenResult x f b).stack = s.stack := rfl
@[simp] theorem State.writeFlagThenResult_disp (s : State) (x : Nibble) (f b : Byte) : (s.writeFlagThenResult x f b).disp = s.disp := rfl
@[simp] theorem State.writeFlagThenResult_fault (s : State) (x : Nibble) (f b : Byte) : (s.writeFlagThenResult x f b).fault = s.fault := rfl
@[simp] theorem State.writeFlagThenResult_unk (s : State) (x : Nibble) (f b : Byte) : (s.writeFlagThenResult x f b).unk = s.unk := rfl
@[simp] theorem State.writeFlagThenResult_input (s : State) (x : Nibble) (f b : Byte) : (s.writeFlagThenResult x f b).input = s.input := rfl
@[simp] theorem State.writeFlagThenResult_schedule (s : State) (x : Nibble) (f b : Byte) : (s.writeFlagThenResult x f b).schedule = s.schedule := rfl
@[simp] theorem State.writeFlagThenResult_draws (s : State) (x : Nibble) (f b : Byte) : (s.writeFlagThenResult x f b).draws = s.draws := rfl
@[simp] theorem State.writeFlagThenResult_byteAt (s : State) (x : Nibble) (f b : Byte) (a : Nat) : (s.writeFlagThenResult x f b).byteAt a = s.byteAt a := rfl
@[simp] theorem State.writeFlagThenResult_memRead (s : State) (x : Nibble) (f b : Byte) (a : Nat) : (s.writeFlagThenResult x f b).memRead a = s.memRead a := rfl

/-- The destination, VF when it is not the destination, and every other register after a flag-writing instruction (42_register_alu.md R172). -/
theorem State.reg_writeFlagThenResult (s : State) (x j : Nibble) (f b : Byte) :
    (s.writeFlagThenResult x f b).reg j = if j = x then b else if j = vf then f else s.reg j := by
  simp only [State.writeFlagThenResult, State.reg_setReg]

/-- Advancing and rewinding is standing still (45_keypad_and_timers.md R234). -/
@[simp] theorem State.rewind_advance (s : State) : s.advance.rewind = s := by
  have h : s.pc + 2 - 2 = s.pc := by bv_omega
  show ({ s with pc := s.pc + 2 - 2 } : State) = s
  rw [h]

end Sys2Proof.Machine
end

