-- ==== Sys2Proof/Laws/Memory.lean ====
section
/-! SUPPORT. The laws of memory: a read after a write, what a write leaves alone, and that every operation keeps the
canonical form. -/

namespace Sys2Proof.Machine

variable {font : Vector Byte 80}

/-! ### One byte -/

theorem Memory.read_insertCell (m : List Host.Cell) (a b : Nat) (u : Byte) (h : ∀ c ∈ m, c.1 ≠ a) :
    Memory.read font (Memory.insertCell m a u) b = if b = a then u else Memory.read font m b := by
  induction m with
  | nil => simp [Memory.insertCell, Memory.read]
  | cons c rest ih =>
    obtain ⟨b', t⟩ := c
    have hne : b' ≠ a := h _ List.mem_cons_self
    have hrest := ih fun c hc => h c (List.mem_cons_of_mem _ hc)
    simp only [Memory.insertCell]
    split
    · simp only [Memory.read, hrest]
      by_cases hb : b = b'
      · simp [hb, hne]
      · simp [hb]
    · simp [Memory.read]

theorem Memory.read_filter (m : List Host.Cell) (a b : Nat) :
    Memory.read font (m.filter fun c => decide (c.1 ≠ a)) b
      = if b = a then initialByte font a else Memory.read font m b := by
  induction m with
  | nil =>
    by_cases hb : b = a
    · simp [Memory.read, hb]
    · simp [Memory.read, hb]
  | cons c rest ih =>
    obtain ⟨b', t⟩ := c
    by_cases hb' : b' = a
    · subst hb'
      rw [List.filter_cons_of_neg (by simp), ih]
      by_cases hb : b = b'
      · simp [hb]
      · simp [Memory.read, hb]
    · rw [List.filter_cons_of_pos (by simpa using hb')]
      simp only [Memory.read, ih]
      by_cases hb : b = b'
      · subst hb; simp [hb']
      · simp [hb]

/-- A read after a write gives the byte written at its address and what stood there anywhere else. -/
theorem Memory.read_write (m : List Host.Cell) (a b : Nat) (u : Byte) :
    Memory.read font (Memory.write font m a u) b = if b = a then u else Memory.read font m b := by
  have hf : ∀ c ∈ m.filter (fun c => decide (c.1 ≠ a)), c.1 ≠ a := fun c hc => by
    simpa using (List.mem_filter.1 hc).2
  simp only [Memory.write]
  split
  · rename_i hu
    rw [Memory.read_filter, hu]
  · rw [Memory.read_insertCell _ _ _ _ hf, Memory.read_filter]
    by_cases hb : b = a <;> simp [hb]

/-! ### The canonical form -/

theorem Memory.wf_nil : Memory.wf font [] := by simp [Memory.wf]

theorem Memory.wf_filter {m : List Host.Cell} (h : Memory.wf font m) (p : Host.Cell → Bool) :
    Memory.wf font (m.filter p) :=
  ⟨h.1.filter _, fun c hc => h.2 c (List.mem_filter.1 hc).1⟩

theorem Memory.mem_insertCell {m : List Host.Cell} {a : Nat} {u : Byte} {c : Host.Cell}
    (h : c ∈ Memory.insertCell m a u) : c = (a, u) ∨ c ∈ m := by
  induction m with
  | nil => simpa [Memory.insertCell] using h
  | cons d rest ih =>
    simp only [Memory.insertCell] at h
    split at h
    · rcases List.mem_cons.1 h with rfl | h
      · simp
      · rcases ih h with h | h <;> simp [h]
    · simpa using h

theorem Memory.wf_insertCell {m : List Host.Cell} {a : Nat} {u : Byte} (h : Memory.wf font m) (ha : a < 4096)
    (hu : u ≠ initialByte font a) (hm : ∀ c ∈ m, c.1 ≠ a) : Memory.wf font (Memory.insertCell m a u) := by
  refine ⟨?_, fun c hc => (Memory.mem_insertCell hc).elim (fun e => by subst e; exact ⟨ha, hu⟩) (h.2 c)⟩
  have hs := h.1
  clear h
  induction m with
  | nil => simp [Memory.insertCell]
  | cons d rest ih =>
    obtain ⟨b, t⟩ := d
    obtain ⟨hd, hr⟩ := List.pairwise_cons.1 hs
    simp only [Memory.insertCell]
    split
    · rename_i hlt
      refine List.pairwise_cons.2 ⟨fun c hc => ?_, ih (fun c hc => hm c (List.mem_cons_of_mem _ hc)) hr⟩
      rcases Memory.mem_insertCell hc with rfl | hc
      · exact hlt
      · exact hd c hc
    · rename_i hge
      have hba : a < b := by
        have := hm _ (List.mem_cons_self (a := (b, t)))
        simp only at this
        omega
      refine List.pairwise_cons.2 ⟨fun c hc => ?_, hs⟩
      rcases List.mem_cons.1 hc with rfl | hc
      · exact hba
      · exact Nat.lt_trans hba (hd c hc)

/-- A write inside the address space keeps the canonical form. -/
theorem Memory.wf_write {m : List Host.Cell} (h : Memory.wf font m) {a : Nat} (ha : a < 4096) (u : Byte) :
    Memory.wf font (Memory.write font m a u) := by
  simp only [Memory.write]
  split
  · exact Memory.wf_filter h _
  · rename_i hu
    exact Memory.wf_insertCell (Memory.wf_filter h _) ha hu fun c hc => by simpa using (List.mem_filter.1 hc).2

/-! ### Several bytes -/

/-- A read after a block write gives the block's byte inside the block and what stood there outside it. -/
theorem Memory.read_writeAll (bs : List Byte) (m : List Host.Cell) (a b : Nat) :
    Memory.read font (Memory.writeAll font m a bs) b
      = if a ≤ b ∧ b < a + bs.length then bs.getD (b - a) 0 else Memory.read font m b := by
  induction bs generalizing m a with
  | nil =>
    have : ¬ (a ≤ b ∧ b < a) := by omega
    simp [Memory.writeAll, this]
  | cons c rest ih =>
    simp only [Memory.writeAll, ih, Memory.read_write, List.length_cons]
    by_cases h1 : b = a
    · subst h1
      rw [if_neg (by omega), if_pos rfl, if_pos (by omega)]
      simp
    · by_cases h2 : a + 1 ≤ b ∧ b < a + 1 + rest.length
      · rw [if_pos h2, if_pos (by omega), show b - a = b - (a + 1) + 1 by omega]
        simp
      · rw [if_neg h2, if_neg h1, if_neg (by omega)]

/-- A block write inside the address space keeps the canonical form. -/
theorem Memory.wf_writeAll {bs : List Byte} {m : List Host.Cell} (h : Memory.wf font m) {a : Nat}
    (ha : a + bs.length ≤ 4096) : Memory.wf font (Memory.writeAll font m a bs) := by
  induction bs generalizing m a with
  | nil => exact h
  | cons b rest ih =>
    simp only [List.length_cons] at ha
    exact ih (Memory.wf_write h (by omega) b) (by omega)

/-! ### The memory interface -/

/-- The list that a memory interface write leaves. -/
theorem State.byteAt_setMem_writeAll (s : State) (a b : Nat) (bs : List Byte) :
    (s.setMem (Memory.writeAll s.cfg.font s.mem a bs)).byteAt b
      = if a ≤ b ∧ b < a + bs.length then bs.getD (b - a) 0 else s.byteAt b :=
  Memory.read_writeAll bs s.mem a b

theorem State.memRead_of_lt (s : State) {a : Nat} (h : a < 4096) : s.memRead a = .ok (s.byteAt a) := by
  simp [State.memRead, h]

theorem State.memRead_of_ge (s : State) {a : Nat} (h : 4096 ≤ a) : s.memRead a = .error (.addressOutOfRange a) := by
  simp [State.memRead, Nat.not_lt.2 h]

/-- All `n` addresses lie in the space: the bytes, lowest address first. -/
theorem State.readBytes_ok (s : State) {a n : Nat} (h : n = 0 ∨ a + n ≤ 4096) :
    s.readBytes a n = .ok ((List.range n).map fun k => s.byteAt (a + k)) := by
  induction n generalizing a with
  | zero => rfl
  | succ n ih =>
    rw [State.readBytes, s.memRead_of_lt (by omega), ih (by omega), List.range_succ_eq_map]
    simp only [List.map_cons, List.map_map, Nat.add_zero]
    have : (fun k => s.byteAt (a + 1 + k)) = (fun k => s.byteAt (a + k)) ∘ Nat.succ := by
      funext k
      show s.byteAt (a + 1 + k) = s.byteAt (a + (k + 1))
      congr 1
      omega
    rw [this]

/-- Some address lies outside: the lowest of them is raised (43_index_and_memory.md R196). -/
theorem State.readBytes_error (s : State) {a n : Nat} (hn : 0 < n) (h : 4096 < a + n) :
    s.readBytes a n = .error (.addressOutOfRange (max a 4096)) := by
  induction n generalizing a with
  | zero => omega
  | succ n ih =>
    by_cases ha : a < 4096
    · rw [State.readBytes, s.memRead_of_lt ha, ih (by omega) (by omega), show max (a + 1) 4096 = max a 4096 by omega]
    · rw [State.readBytes, s.memRead_of_ge (by omega), show max a 4096 = a by omega]

/-- All addresses lie in the space: the block is written. -/
theorem State.writeBytes_ok (s : State) {a : Nat} {bs : List Byte} (h : bs = [] ∨ a + bs.length ≤ 4096) :
    s.writeBytes a bs = .ok (s.setMem (Memory.writeAll s.cfg.font s.mem a bs)) := by
  induction bs generalizing s a with
  | nil => rfl
  | cons b rest ih =>
    simp only [List.length_cons, reduceCtorEq, false_or] at h
    have ha : a < 4096 := by omega
    simp only [State.writeBytes, State.memWrite, ha, if_true]
    rw [ih _ (by omega)]
    rfl

/-- Some address lies outside: the lowest of them is raised and nothing is answered that was written. -/
theorem State.writeBytes_error (s : State) {a : Nat} {bs : List Byte} (hn : bs ≠ []) (h : 4096 < a + bs.length) :
    s.writeBytes a bs = .error (.addressOutOfRange (max a 4096)) := by
  induction bs generalizing s a with
  | nil => exact absurd rfl hn
  | cons b rest ih =>
    simp only [List.length_cons] at h
    by_cases ha : a < 4096
    · simp only [State.writeBytes, State.memWrite, ha, if_true]
      rw [ih _ (by rintro rfl; simp at h; omega) (by omega), show max (a + 1) 4096 = max a 4096 by omega]
    · simp only [State.writeBytes, State.memWrite, ha, if_false]
      rw [show max a 4096 = a by omega]

end Sys2Proof.Machine
end

