-- ==== Sys2Proof/Safety.lean ====
section
/-! DEFINITION. The terms claims use: the pieces of state and what an instruction reads and writes of them (spec 10_state.md
R43), the invariant every event keeps, a run that has not faulted, a machine at rest. -/

namespace Sys2Proof.Machine

/-! ### Pieces of state -/

/-- The pieces of state a claim about what changes speaks of. Memory and display are named a byte and a pixel at a time. -/
inductive Piece where
  | reg (k : Nibble)
  | index
  | pc
  | delay
  | sound
  | stack
  | pixel (r c : Nat)
  | memByte (a : Nat)
  | fault
  | unk
  /-- The parameters: `cfg`. -/
  | parameters
  /-- The key vector the STEP sampled (R35). -/
  | keys
  /-- The random byte the STEP sampled (R35). -/
  | randomByte
  /-- The draw for a key number above 15 (45_keypad_and_timers.md R230). -/
  | absentKey
  /-- The draw among several pressed keys (45_keypad_and_timers.md R234). -/
  | keyChoice
  /-- What the environment still has to do: `schedule`, `draws`. -/
  | environment
  deriving DecidableEq, Repr

/-- Two states hold the same value in a piece. Memory is compared through the memory interface. -/
def Piece.same (p : Piece) (s t : State) : Prop :=
  match p with
  | .reg k => t.reg k = s.reg k
  | .index => t.i = s.i
  | .pc => t.pc = s.pc
  | .delay => t.dt = s.dt
  | .sound => t.st = s.st
  | .stack => t.stack = s.stack
  | .pixel r c => Sys2Proof.Machine.pixel t.disp r c = Sys2Proof.Machine.pixel s.disp r c
  | .memByte a => t.memRead a = s.memRead a
  | .fault => t.fault = s.fault
  | .unk => t.unk = s.unk
  | .parameters => t.cfg = s.cfg
  | .keys => t.input.keys = s.input.keys
  | .randomByte => t.input.rnd = s.input.rnd
  | .absentKey => t.input.absentKey = s.input.absentKey
  | .keyChoice => t.input.keyChoice = s.input.keyChoice
  | .environment => t.schedule = s.schedule ∧ t.draws = s.draws

/-- Nothing has changed from `s` to `t` but, at most, the pieces in `changed`. -/
def OnlyChanged (changed : Piece → Prop) (s t : State) : Prop := ∀ p, ¬ changed p → p.same s t

end Sys2Proof.Machine

namespace Sys2Proof

open Sys2Proof.Machine

/-- The general registers an instruction may write: `V[x]`, VF, or a block (R22, R43). -/
def Instr.writesReg (i : Instr) (k : Nibble) : Prop :=
  match i with
  | .ldImm x _ | .addImm x _ | .ldReg x _ | .orReg x _ | .andReg x _ | .xorReg x _ | .rnd x _ | .ldVxDt x | .ldVxK x => k = x
  | .addReg x _ | .sub x _ | .shr x _ | .subn x _ | .shl x _ => k = x ∨ k = vf
  | .drw _ _ _ => k = vf
  | .ldRegs x => k ≤ x
  | .cls | .ret | .jp _ | .call _ | .seImm _ _ | .sneImm _ _ | .seReg _ _ | .sneReg _ _ | .ldI _ | .jpV0 _ | .skp _
  | .sknp _ | .ldDtVx _ | .ldStVx _ | .addI _ | .ldF _ | .ldB _ | .stRegs _ => False

/-- The bytes of memory an instruction stores to, as an address and a count: `Fx33` three from `I`, `Fx55` `x + 1` from `I`
(R71, R193, R194). -/
def Instr.storeRange (i : Instr) (s : State) : Nat × Nat :=
  match i with
  | .ldB _ => (s.dataAddr, 3)
  | .stRegs x => (s.dataAddr, x.toNat + 1)
  | .cls | .ret | .jp _ | .call _ | .seImm _ _ | .sneImm _ _ | .seReg _ _ | .ldImm _ _ | .addImm _ _ | .ldReg _ _
  | .orReg _ _ | .andReg _ _ | .xorReg _ _ | .addReg _ _ | .sub _ _ | .shr _ _ | .subn _ _ | .shl _ _ | .sneReg _ _
  | .ldI _ | .jpV0 _ | .rnd _ _ | .drw _ _ _ | .skp _ | .sknp _ | .ldVxDt _ | .ldVxK _ | .ldDtVx _ | .ldStVx _
  | .addI _ | .ldF _ | .ldRegs _ => (0, 0)

/-- Whether an instruction can raise a fault (60_exceptions.md R257). -/
def Instr.canFault (i : Instr) : Bool :=
  match i with
  | .ret | .call _ | .drw _ _ _ | .ldB _ | .stRegs _ | .ldRegs _ => true
  | .cls | .jp _ | .seImm _ _ | .sneImm _ _ | .seReg _ _ | .ldImm _ _ | .addImm _ _ | .ldReg _ _ | .orReg _ _
  | .andReg _ _ | .xorReg _ _ | .addReg _ _ | .sub _ _ | .shr _ _ | .subn _ _ | .shl _ _ | .sneReg _ _ | .ldI _
  | .jpV0 _ | .rnd _ _ | .skp _ | .sknp _ | .ldVxDt _ | .ldVxK _ | .ldDtVx _ | .ldStVx _ | .addI _ | .ldF _ => false

/-- The column "written by" of R43, with the program counter (R125), the sprite's footprint (44_display.md R212: `V[x]` is its
column and the origin is not reduced, decisions D10, D11, assumption log 13, 14) and the stored bytes: the pieces instruction
`i` may change when it runs in state `s`. -/
def Instr.writes (i : Instr) (s : State) (p : Piece) : Prop :=
  match p with
  | .reg k => i.writesReg k
  | .index => match i with
    | .ldI _ | .addI _ | .ldF _ | .stRegs _ | .ldRegs _ => True
    | _ => False
  | .pc => True
  | .delay => match i with
    | .ldDtVx _ => True
    | _ => False
  | .sound => match i with
    | .ldStVx _ => True
    | _ => False
  | .stack => match i with
    | .call _ | .ret => True
    | _ => False
  | .pixel r c => match i with
    | .cls => True
    | .drw x y n =>
      (s.reg y).toNat ≤ r ∧ r < (s.reg y).toNat + n.toNat ∧ (s.reg x).toNat ≤ c ∧ c < (s.reg x).toNat + 8
    | _ => False
  | .memByte a => (i.storeRange s).1 ≤ a ∧ a < (i.storeRange s).1 + (i.storeRange s).2
  | .fault => i.canFault = true
  | .unk => False
  | .parameters => False
  | .keys => False
  | .randomByte => False
  | .absentKey => False
  | .keyChoice => False
  | .environment => False

/-- The column "read by" of R43, with what it leaves to other rules: `PC`, which every instruction advances or a fault
records; for `2nnn` the depth and STACK_CAPACITY its fault check compares (41_control_transfer.md R141); the draws of the key
instructions (45_keypad_and_timers.md R230, R234); the pixels of the sprite's footprint (44_display.md R212). -/
def Instr.reads (i : Instr) (s : State) (p : Piece) : Prop :=
  match p with
  | .reg k => match i with
    | .seImm x _ | .sneImm x _ | .addImm x _ | .skp x | .sknp x | .ldDtVx x | .ldStVx x | .addI x | .ldF x | .ldB x => k = x
    | .seReg x y | .sneReg x y | .orReg x y | .andReg x y | .xorReg x y | .addReg x y | .sub x y | .subn x y
    | .drw x y _ => k = x ∨ k = y
    | .ldReg _ y | .shr _ y | .shl _ y => k = y
    | .jpV0 _ => k = 0
    | .stRegs x => k ≤ x
    | .cls | .ret | .jp _ | .call _ | .ldImm _ _ | .ldI _ | .rnd _ _ | .ldVxDt _ | .ldVxK _ | .ldRegs _ => False
  | .index => match i with
    | .addI _ | .ldB _ | .stRegs _ | .ldRegs _ | .drw _ _ _ => True
    | _ => False
  | .pc => True
  | .delay => match i with
    | .ldVxDt _ => True
    | _ => False
  | .sound => False
  | .stack => match i with
    | .ret | .call _ => True
    | _ => False
  | .pixel r c => match i with
    | .drw x y n =>
      (s.reg y).toNat ≤ r ∧ r < (s.reg y).toNat + n.toNat ∧ (s.reg x).toNat ≤ c ∧ c < (s.reg x).toNat + 8
    | _ => False
  | .memByte a => match i with
    | .drw _ _ n => s.dataAddr ≤ a ∧ a < s.dataAddr + n.toNat
    | .ldRegs x => s.dataAddr ≤ a ∧ a < s.dataAddr + (x.toNat + 1)
    | _ => False
  | .fault => False
  | .unk => False
  | .parameters => match i with
    | .call _ => True
    | _ => False
  | .keys => match i with
    | .skp _ | .sknp _ | .ldVxK _ => True
    | _ => False
  | .randomByte => match i with
    | .rnd _ _ => True
    | _ => False
  | .absentKey => match i with
    | .skp x | .sknp x => 16 ≤ (s.reg x).toNat
    | _ => False
  | .keyChoice => match i with
    | .ldVxK _ => True
    | _ => False
  | .environment => False

end Sys2Proof

namespace Sys2Proof.Machine

/-! ### Sprites -/

/-- The sprite's bit at display row `r` and column `c` when its top left corner is at row `row` and column `oc`: byte `r - row`,
bit `7 - (c - oc)`; outside the sprite it is 0 (44_display.md R211, R212). -/
def spriteBit (bs : List Byte) (row oc r c : Nat) : Bool :=
  decide (row ≤ r ∧ r < row + bs.length ∧ oc ≤ c ∧ c < oc + 8) && (bs.getD (r - row) 0).getLsbD (7 - (c - oc))

/-- The sprite `Dxyn` draws: the `n` bytes from `I` up (R212). -/
def State.sprite (s : State) (n : Nibble) : List Byte := (List.range n.toNat).map fun k => s.byteAt (s.dataAddr + k)

/-! ### The invariant -/

/-- What FAULT can hold (60_exceptions.md R250, R251): the info of each code. -/
def FaultReg.legal (f : FaultReg) : Prop :=
  match f.code with
  | .noFault => f.info = 0
  | .addressOutOfRange => 4095 ≤ f.info.toNat ∧ f.info.toNat ≤ 0xFFFF
  | .stackOverflow => f.info.toNat ≤ 4094
  | .stackUnderflow => f.info.toNat ≤ 4094
  | .imageTooLarge => 3585 ≤ f.info.toNat

/-- The invariant: memory in canonical form, at most STACK_CAPACITY stack entries (R27), each a value `2nnn` can push (R141),
`PC` in the range of 40_fetch_decode_step.md R127, and a legal FAULT. -/
structure State.Inv (s : State) : Prop where
  mem : Memory.wf s.cfg.font s.mem
  depth : s.stack.length ≤ s.cfg.stackCapacity
  entries : ∀ r ∈ s.stack, 2 ≤ r.toNat ∧ r.toNat ≤ 4096
  pc : s.pc.toNat ≤ 0x10FE
  fault : s.fault.legal

/-! ### Safe runs and rest -/

/-- No fault has happened: what a claim that a program ran correctly must include (60_exceptions.md R256). -/
def State.safe (s : State) : Bool := decide (s.fault.code = .noFault)

/-- The word at `PC`, where it can be fetched. -/
def State.nextWord (s : State) : Option Word :=
  match s.fetch with
  | .ok w => some w
  | .error _ => none

/-- The suggested end of a run (92_eei_decisions.md D22): no fault, and the word at `PC` is `1nnn` with `nnn = PC`. -/
def State.atRest (s : State) : Bool :=
  s.safe && match s.nextWord with
    | some w => decide (decodeWord w = .ok (.jp (s.pc.setWidth 12)) ∧ s.pc.toNat ≤ 0xFFF)
    | none => false

end Sys2Proof.Machine
end

