-- ==== Sys2Proof/Laws/Ops.lean ====
section
/-! SUPPORT. One specification lemma per shared operation: the stack, the commit, the register block, the sprite blit. -/

namespace Sys2Proof.Machine

/-! ### The call stack (10_state.md R27) -/

theorem State.push_ok (s : State) {ipc w : Word} (h : s.stack.length < s.cfg.stackCapacity) :
    s.push ipc w = .ok (s.setStack (s.stack ++ [w])) := by
  simp [State.push, h]

theorem State.push_error (s : State) {ipc w : Word} (h : s.cfg.stackCapacity ≤ s.stack.length) :
    s.push ipc w = .error (.stackOverflow ipc) := by
  simp [State.push, Nat.not_lt.2 h]

theorem State.pop_ok (s : State) {ipc w : Word} {rest : List Word} (h : s.stack = rest ++ [w]) :
    s.pop ipc = .ok (w, s.setStack rest) := by
  simp [State.pop, h]

theorem State.pop_error (s : State) {ipc : Word} (h : s.stack = []) :
    s.pop ipc = .error (.stackUnderflow ipc) := by
  simp [State.pop, h]

/-! ### The commit -/

@[simp] theorem finish_ok (s t : State) : finish s (.ok t) = .next t := rfl
@[simp] theorem finish_error (s : State) (f : Fault) : finish s (.error f) = .next (s.takeFault f) := rfl

/-- Everything the commit can answer: a next state, which is what the instruction computed or the fault it raised, entered on
the state before it. -/
theorem finish_next {s t : State} {r : Except Fault State} (h : finish s r = .next t) :
    r = .ok t ∨ ∃ f, r = .error f ∧ t = s.takeFault f := by
  cases r with
  | ok u => left; simpa using h
  | error f => right; exact ⟨f, rfl, by simpa using h.symm⟩

/-! ### The register block of `Fx65` (43_index_and_memory.md R195) -/

/-- The fields a block load leaves alone. -/
theorem State.loadRegsFrom_frame (bs : List Byte) (s : State) (k : Nat) :
    ∃ w, s.loadRegsFrom k bs = { s with v := w } := by
  induction bs generalizing s k with
  | nil => exact ⟨s.v, rfl⟩
  | cons b rest ih =>
    obtain ⟨w, hw⟩ := ih (s.setReg (BitVec.ofNat 4 k) b) (k + 1)
    exact ⟨w, hw⟩

/-- A register of the block receives its byte, any other keeps its value. -/
theorem State.reg_loadRegsFrom (bs : List Byte) (s : State) (k : Nat) (j : Nibble) (h : k + bs.length ≤ 16) :
    (s.loadRegsFrom k bs).reg j
      = if k ≤ j.toNat ∧ j.toNat < k + bs.length then bs.getD (j.toNat - k) 0 else s.reg j := by
  induction bs generalizing s k with
  | nil => simp [State.loadRegsFrom]
  | cons b rest ih =>
    simp only [List.length_cons] at h
    have hk : (BitVec.ofNat 4 k).toNat = k := by simp; omega
    simp only [State.loadRegsFrom, ih _ _ (by omega : k + 1 + rest.length ≤ 16), State.reg_setReg, List.length_cons]
    by_cases h1 : j.toNat = k
    · have hj : j = BitVec.ofNat 4 k := BitVec.eq_of_toNat_eq (by omega)
      rw [if_neg (by omega), if_pos hj, if_pos (by omega), h1]
      simp
    · have hj : j ≠ BitVec.ofNat 4 k := fun e => h1 (by rw [e, hk])
      by_cases h2 : k + 1 ≤ j.toNat ∧ j.toNat < k + 1 + rest.length
      · rw [if_pos h2, if_pos (by omega), show j.toNat - k = j.toNat - (k + 1) + 1 by omega]
        simp
      · rw [if_neg h2, if_neg hj, if_neg (by omega)]

@[simp] theorem State.length_blockOfRegs (s : State) (x : Nibble) : (s.blockOfRegs x).length = x.toNat + 1 := by
  simp [State.blockOfRegs]

theorem State.getD_blockOfRegs (s : State) (x : Nibble) {k : Nat} (h : k ≤ x.toNat) :
    (s.blockOfRegs x).getD k 0 = s.reg (BitVec.ofNat 4 k) := by
  simp [State.blockOfRegs, List.getD_eq_getElem?_getD, Nat.lt_succ_of_le h]

/-! ### The keypad (45_keypad_and_timers.md R230, R234) -/

theorem mem_pressedKeys {keys : Word} {k : Nat} : k ∈ pressedKeys keys ↔ k < 16 ∧ keys.getLsbD k = true := by
  simp [pressedKeys]

theorem pressedKeys_ne_nil {keys : Word} (h : keys ≠ 0) : pressedKeys keys ≠ [] := by
  intro e
  apply h
  apply BitVec.eq_of_getLsbD_eq
  intro k hk
  have hn : k ∉ pressedKeys keys := by simp [e]
  simpa [mem_pressedKeys, hk] using hn

/-- The delivered key is one of the pressed keys. -/
theorem deliveredKey_pressed (inp : StepInput) (h : inp.keys ≠ 0) :
    (deliveredKey inp).toNat < 16 ∧ inp.keys.getLsbD (deliveredKey inp).toNat = true := by
  have hlen : 0 < (pressedKeys inp.keys).length := List.length_pos_iff.2 (pressedKeys_ne_nil h)
  have hlt := Nat.mod_lt inp.keyChoice hlen
  have hm : (pressedKeys inp.keys)[inp.keyChoice % (pressedKeys inp.keys).length]'hlt ∈ pressedKeys inp.keys :=
    List.getElem_mem hlt
  have hd : (deliveredKey inp).toNat = (pressedKeys inp.keys)[inp.keyChoice % (pressedKeys inp.keys).length]'hlt := by
    have := (mem_pressedKeys.1 hm).1
    simp only [deliveredKey, List.getD_eq_getElem _ _ hlt, BitVec.toNat_ofNat]
    omega
  rw [hd]
  exact mem_pressedKeys.1 hm

/-! ### The display (44_display.md R211 to R213) -/

/-- A row of the sprite as display pixels: bit `7 - (c - oc)` at column `c` of its eight columns, clipped at the edge. -/
theorem getMsbD_spriteRow (b : Byte) (oc c : Nat) :
    (spriteRow b oc).getMsbD c = (decide (c < 64 ∧ oc ≤ c ∧ c < oc + 8) && b.getLsbD (7 - (c - oc))) := by
  simp only [spriteRow, BitVec.getMsbD, BitVec.getLsbD_ushiftRight, BitVec.getLsbD_shiftLeft, BitVec.getLsbD_setWidth]
  by_cases h1 : c < 64
  · by_cases h2 : oc ≤ c
    · by_cases h3 : c < oc + 8
      · have e1 : oc + (64 - 1 - c) - 56 = 7 - (c - oc) := by omega
        have e2 : oc + (64 - 1 - c) < 64 := by omega
        have e3 : ¬ oc + (64 - 1 - c) < 56 := by omega
        simp [h1, h2, h3, e1, e2, e3]; omega
      · have e3 : oc + (64 - 1 - c) < 56 := by omega
        simp [h3, e3]
    · have e2 : ¬ oc + (64 - 1 - c) < 64 := by omega
      simp [h2, e2]
  · simp [h1]

theorem pixel_set (d : Vector (BitVec 64) 32) {row : Nat} (h : row < 32) (w : BitVec 64) (r c : Nat) :
    pixel (d.set row w) r c = if r = row then w.getMsbD c else pixel d r c := by
  by_cases hr : r < 32
  · by_cases he : r = row
    · subst he; simp [pixel, h]
    · have : row ≠ r := fun e => he e.symm
      simp [pixel, hr, he, this]
  · have : r ≠ row := by omega
    simp [pixel, hr, this]

/-- The blit, pixel by pixel: a drawn pixel is XORed with its sprite bit, every other is left alone. -/
theorem pixel_blit (bs : List Byte) (d : Vector (BitVec 64) 32) (row oc r c : Nat) (hr : r < 32) (hc : c < 64) :
    pixel (blit d row oc bs).1 r c = (pixel d r c ^^ spriteBit bs row oc r c) := by
  induction bs generalizing d row with
  | nil =>
    simp [blit, spriteBit]
  | cons b rest ih =>
    have step : spriteBit (b :: rest) row oc r c
        = if r = row then (decide (oc ≤ c ∧ c < oc + 8) && b.getLsbD (7 - (c - oc)))
          else spriteBit rest (row + 1) oc r c := by
      by_cases he : r = row
      · subst he
        simp [spriteBit]
      · simp only [spriteBit, List.length_cons, he, if_false]
        by_cases hle : row + 1 ≤ r
        · rw [show r - row = r - (row + 1) + 1 by omega]
          have : (row ≤ r ∧ r < row + (rest.length + 1) ∧ oc ≤ c ∧ c < oc + 8)
              ↔ (row + 1 ≤ r ∧ r < row + 1 + rest.length ∧ oc ≤ c ∧ c < oc + 8) := by omega
          simp [this]
        · have h1 : ¬ (row ≤ r) := by omega
          simp [h1, hle]
    have skip : r = row → spriteBit rest (row + 1) oc r c = false := by
      intro he
      have : ¬ row + 1 ≤ r := by omega
      simp [spriteBit, this]
    simp only [blit]
    split
    · rename_i h
      rw [ih, pixel_set _ h, step]
      by_cases he : r = row
      · rw [if_pos he, if_pos he, skip he, BitVec.getMsbD_xor, getMsbD_spriteRow]
        subst he
        simp [pixel, h, hc]
      · rw [if_neg he, if_neg he]
    · rename_i h
      rw [ih, step, if_neg (by omega : ¬ r = row)]

/-- Two displays that show the same pixels are one. -/
theorem disp_ext {d e : Vector (BitVec 64) 32} (h : ∀ r c, r < 32 → c < 64 → pixel d r c = pixel e r c) : d = e := by
  apply Vector.ext
  intro r hr
  apply BitVec.eq_of_getMsbD_eq
  intro c hc
  have := h r c hr hc
  simpa [pixel, hr] using this

/-- The blit reports a collision exactly when a lit pixel lies under a 1 of the sprite (R213). -/
theorem blit_collided (bs : List Byte) (d : Vector (BitVec 64) 32) (row oc : Nat) :
    (blit d row oc bs).2 = true
      ↔ ∃ r c, r < 32 ∧ c < 64 ∧ pixel d r c = true ∧ spriteBit bs row oc r c = true := by
  induction bs generalizing d row with
  | nil => simp [blit, spriteBit]
  | cons b rest ih =>
    have hsplit : ∀ r c, spriteBit (b :: rest) row oc r c = true
        ↔ (r = row ∧ (oc ≤ c ∧ c < oc + 8) ∧ b.getLsbD (7 - (c - oc)) = true) ∨ spriteBit rest (row + 1) oc r c = true := by
      intro r c
      by_cases he : r = row
      · subst he
        have : ¬ r + 1 ≤ r := by omega
        simp [spriteBit, this]
      · by_cases hle : row + 1 ≤ r
        · simp only [spriteBit, List.length_cons, he, false_and, false_or, Bool.and_eq_true, decide_eq_true_eq]
          rw [show r - row = r - (row + 1) + 1 by omega]
          have : (row ≤ r ∧ r < row + (rest.length + 1) ∧ oc ≤ c ∧ c < oc + 8)
              ↔ (row + 1 ≤ r ∧ r < row + 1 + rest.length ∧ oc ≤ c ∧ c < oc + 8) := by omega
          simp [this]
        · have h1 : ¬ (row ≤ r) := by omega
          simp [spriteBit, h1, hle, he]
    have hrest : ∀ r c, spriteBit rest (row + 1) oc r c = true → r ≠ row := by
      intro r c h
      simp [spriteBit] at h
      omega
    simp only [blit]
    split
    · rename_i h
      have hrow : (d[row] &&& spriteRow b oc ≠ 0)
          ↔ ∃ c, c < 64 ∧ pixel d row c = true ∧ (oc ≤ c ∧ c < oc + 8) ∧ b.getLsbD (7 - (c - oc)) = true := by
        constructor
        · intro hne
          by_contra hno
          apply hne
          apply BitVec.eq_of_getMsbD_eq
          intro c hc
          have := fun hp hq => hno ⟨c, hc, hp, hq⟩
          simp only [BitVec.getMsbD_and, getMsbD_spriteRow]
          simp only [pixel, h, dif_pos] at this
          cases hp : (d[row]).getMsbD c
          · simp
          · have hq := this hp
            simp only [hc, true_and, Bool.true_and]
            by_cases hw : oc ≤ c ∧ c < oc + 8
            · cases hb : b.getLsbD (7 - (c - oc))
              · simp
              · exact absurd ⟨hw, hb⟩ hq
            · simp [hw]
        · rintro ⟨c, hc, hp, hw, hb⟩ he
          have := congrArg (fun w => w.getMsbD c) he
          simp only [pixel, h, dif_pos] at hp
          simp [BitVec.getMsbD_and, getMsbD_spriteRow, hp, hc, hw, hb] at this
      rw [Bool.or_eq_true, decide_eq_true_eq, hrow, ih]
      constructor
      · rintro (⟨c, hc, hp, hw, hb⟩ | ⟨r, c, hr, hc, hp, hs⟩)
        · exact ⟨row, c, h, hc, hp, (hsplit row c).2 (Or.inl ⟨rfl, hw, hb⟩)⟩
        · rw [pixel_set _ h, if_neg (hrest r c hs)] at hp
          exact ⟨r, c, hr, hc, hp, (hsplit r c).2 (Or.inr hs)⟩
      · rintro ⟨r, c, hr, hc, hp, hs⟩
        rcases (hsplit r c).1 hs with ⟨rfl, hw, hb⟩ | hs
        · exact Or.inl ⟨c, hc, hp, hw, hb⟩
        · exact Or.inr ⟨r, c, hr, hc, by rw [pixel_set _ h, if_neg (hrest r c hs)]; exact hp, hs⟩
    · rename_i h
      rw [ih]
      constructor
      · rintro ⟨r, c, hr, hc, hp, hs⟩
        exact ⟨r, c, hr, hc, hp, (hsplit r c).2 (Or.inr hs)⟩
      · rintro ⟨r, c, hr, hc, hp, hs⟩
        rcases (hsplit r c).1 hs with ⟨rfl, -⟩ | hs
        · omega
        · exact ⟨r, c, hr, hc, hp, hs⟩

end Sys2Proof.Machine
end

