-- ==== Sys2Proof/Laws/Step.lean ====
section
/-! SUPPORT. Everything a step can do, said once. -/

namespace Sys2Proof.Machine

/-- The word at `PC`: the byte at `PC` is its high byte (20_memory.md R67). -/
def State.wordAtPc (s : State) : Word := wordOfBytes (s.byteAt s.pc.toNat) (s.byteAt (s.pc.toNat + 1))

theorem State.fetch_ok (s : State) (h : s.pc.toNat ≤ 4094) : s.fetch = .ok s.wordAtPc := by
  simp [State.fetch, Nat.not_lt.2 h, State.wordAtPc]

theorem State.fetch_error (s : State) (h : 4094 < s.pc.toNat) : s.fetch = .error (.addressOutOfRange s.pc.toNat) := by
  simp [State.fetch, h]

@[simp] theorem State.sample_wordAtPc (s : State) (inp : StepInput) : (s.sample inp).wordAtPc = s.wordAtPc := rfl

/-- A halted machine's STEP (60_exceptions.md R256). -/
theorem stepUnit_halted {inp : StepInput} {s : State} (h : s.fault.code ≠ .noFault) :
    stepUnit inp s = .next (s.sample inp) := by
  simp [stepUnit, h]

/-- A STEP whose fetch is out of range (40_fetch_decode_step.md R121). -/
theorem stepUnit_fetchFault {inp : StepInput} {s : State} (h : s.fault.code = .noFault) (hpc : 4094 < s.pc.toNat) :
    stepUnit inp s = .next ((s.sample inp).takeFault (.addressOutOfRange s.pc.toNat)) := by
  simp only [stepUnit, h, ne_eq, not_true_eq_false, if_false]
  rw [(s.sample inp).fetch_error (by simpa using hpc)]
  rfl

/-- A STEP on a word that selects no instruction (R128). -/
theorem stepUnit_unrecognised {inp : StepInput} {s : State} (h : s.fault.code = .noFault) (hpc : s.pc.toNat ≤ 4094)
    {e : DecodeError} (hd : decodeWord s.wordAtPc = .error e) :
    stepUnit inp s = .next (execUnrecognised (s.sample inp)) := by
  simp only [stepUnit, h, ne_eq, not_true_eq_false, if_false]
  rw [(s.sample inp).fetch_ok (by simpa using hpc)]
  simp [hd]

/-- A STEP on the word of an instruction (R124). -/
theorem stepUnit_exec {inp : StepInput} {s : State} (h : s.fault.code = .noFault) (hpc : s.pc.toNat ≤ 4094)
    {i : Instr} (hd : decodeWord s.wordAtPc = .ok i) :
    stepUnit inp s = exec i (s.sample inp) := by
  simp only [stepUnit, h, ne_eq, not_true_eq_false, if_false]
  rw [(s.sample inp).fetch_ok (by simpa using hpc)]
  simp [hd]

/-- Everything a STEP can answer. -/
theorem stepUnit_cases {inp : StepInput} {s : State} {o : Host.Outcome State Fault Refusal} (h : stepUnit inp s = o) :
    (s.fault.code ≠ .noFault ∧ o = .next (s.sample inp)) ∨
    (s.fault.code = .noFault ∧ 4094 < s.pc.toNat ∧
      o = .next ((s.sample inp).takeFault (.addressOutOfRange s.pc.toNat))) ∨
    (s.fault.code = .noFault ∧ s.pc.toNat ≤ 4094 ∧ (∃ e, decodeWord s.wordAtPc = .error e) ∧
      o = .next (execUnrecognised (s.sample inp))) ∨
    (s.fault.code = .noFault ∧ s.pc.toNat ≤ 4094 ∧ ∃ i, decodeWord s.wordAtPc = .ok i ∧ o = exec i (s.sample inp)) := by
  subst h
  by_cases hf : s.fault.code = .noFault
  · by_cases hpc : 4094 < s.pc.toNat
    · exact Or.inr (Or.inl ⟨hf, hpc, stepUnit_fetchFault hf hpc⟩)
    · have hpc := Nat.le_of_not_lt hpc
      cases hd : decodeWord s.wordAtPc with
      | error e => exact Or.inr (Or.inr (Or.inl ⟨hf, hpc, ⟨e, rfl⟩, stepUnit_unrecognised hf hpc hd⟩))
      | ok i => exact Or.inr (Or.inr (Or.inr ⟨hf, hpc, i, rfl, stepUnit_exec hf hpc hd⟩))
  · exact Or.inl ⟨hf, stepUnit_halted hf⟩

/-! ### The next event (10_state.md R40) -/

theorem State.nextEvent_cons {s : State} {e : Event} {rest : List Event} (h : s.schedule = e :: rest) :
    s.nextEvent = (e, s.setSchedule rest) := by
  simp [State.nextEvent, h]

theorem State.nextEvent_nil {s : State} (h : s.schedule = []) :
    s.nextEvent = (Config.freeEvent s.draws, s.setDraws (s.draws + 1)) := by
  simp [State.nextEvent, h]

/-- Taking the event changes the schedule and the count of free values alone. -/
theorem State.nextEvent_frame {s u : State} {e : Event} (h : s.nextEvent = (e, u)) :
    u = (s.setSchedule u.schedule).setDraws u.draws := by
  simp only [State.nextEvent] at h
  split at h
  · obtain ⟨-, rfl⟩ := Prod.mk.inj h
    rfl
  · obtain ⟨-, rfl⟩ := Prod.mk.inj h
    rfl

theorem step_of_nextEvent {s u : State} {e : Event} (h : s.nextEvent = (e, u)) : step s = runEvent e u := by
  simp [step, h]

/-- Everything a model step can be: one event on the state with it taken. -/
theorem step_cases (s : State) : ∃ u,
    (∃ inp, s.nextEvent = (.step inp, u) ∧ step s = stepUnit inp u) ∨
    (s.nextEvent = (.tick, u) ∧ step s = .next u.tick) ∨
    (∃ image, s.nextEvent = (.reset image, u) ∧ step s = .next (u.resetWith image)) := by
  rcases h : s.nextEvent with ⟨e, u⟩
  have hs := step_of_nextEvent h
  refine ⟨u, ?_⟩
  cases e with
  | step inp => exact Or.inl ⟨inp, rfl, hs⟩
  | tick => exact Or.inr (Or.inl ⟨rfl, hs⟩)
  | reset image => exact Or.inr (Or.inr ⟨image, rfl, hs⟩)

/-- After `stepNext` the next event is a STEP, and nothing but the schedule and the count of free values has changed. -/
theorem State.stepNext_spec (s : State) :
    (∃ inp rest, s.stepNext.schedule = .step inp :: rest) ∧
    s.stepNext = (s.setSchedule s.stepNext.schedule).setDraws s.stepNext.draws := by
  simp only [State.stepNext]
  split
  · rename_i e rest h
    have he := List.head?_dropWhile_not (fun e : Event => !e.isStep) s.schedule
    rw [h] at he
    cases e with
    | step inp => exact ⟨⟨inp, rest, rfl⟩, rfl⟩
    | tick => simp [Event.isStep] at he
    | reset image => simp [Event.isStep] at he
  · exact ⟨⟨_, [], rfl⟩, rfl⟩

/-- RESET leaves memory in canonical form (70_reset_and_hazards.md R290). -/
theorem State.wf_resetWith (s : State) (image : List Byte) :
    Memory.wf (s.resetWith image).cfg.font (s.resetWith image).mem := by
  by_cases h : image.length + 0x200 ≤ 4096
  · simp only [State.resetWith, h, if_true]
    exact Memory.wf_writeAll Memory.wf_nil (by omega)
  · simp only [State.resetWith, h, if_false]
    exact Memory.wf_nil

end Sys2Proof.Machine
end

