-- ==== Sys2Proof/Laws/Exec.lean ====
section
/-! SUPPORT. The next state of each instruction that can fault, on both sides of its check, what any
instruction can do to FAULT and the environment, and how claims about what changes compose. -/

namespace Sys2Proof.Machine

/-! ### What changes -/

theorem Piece.same_refl (p : Piece) (s : State) : p.same s s := by
  cases p <;> simp [Piece.same]

theorem Piece.same_trans {p : Piece} {s t u : State} (h : p.same s t) (h' : p.same t u) : p.same s u := by
  cases p <;> simp_all [Piece.same]

theorem OnlyChanged.mono {ch ch' : Piece → Prop} {s t : State} (h : OnlyChanged ch s t) (le : ∀ p, ch p → ch' p) :
    OnlyChanged ch' s t := fun p hp => h p fun c => hp (le p c)

theorem OnlyChanged.trans {ch : Piece → Prop} {s t u : State} (h : OnlyChanged ch s t) (h' : OnlyChanged ch t u) :
    OnlyChanged ch s u := fun p hp => Piece.same_trans (h p hp) (h' p hp)

/-- Fault entry changes FAULT alone (60_exceptions.md R255). -/
theorem State.onlyChanged_takeFault (s : State) (f : Fault) : OnlyChanged (· = .fault) s (s.takeFault f) := by
  intro p hp
  cases p <;> simp_all [Piece.same]

/-! ### Calls and returns -/

theorem exec_call_ok (nnn : Addr) (s : State) (h : s.stack.length < s.cfg.stackCapacity) :
    exec (.call nnn) s = .next ((s.advance.setStack (s.stack ++ [s.pc + 2])).setPc (zextAddr nnn)) := by
  simp only [exec, execCall]
  rw [State.push_ok s.advance h]
  rfl

theorem exec_call_fault (nnn : Addr) (s : State) (h : s.cfg.stackCapacity ≤ s.stack.length) :
    exec (.call nnn) s = .next (s.takeFault (.stackOverflow s.pc)) := by
  simp only [exec, execCall]
  rw [State.push_error s.advance h]
  rfl

theorem exec_ret_ok (s : State) {rest : List Word} {w : Word} (h : s.stack = rest ++ [w]) :
    exec .ret s = .next ((s.setStack rest).setPc w) := by
  simp only [exec, execRet]
  rw [State.pop_ok s h]
  rfl

theorem exec_ret_fault (s : State) (h : s.stack = []) : exec .ret s = .next (s.takeFault (.stackUnderflow s.pc)) := by
  simp only [exec, execRet]
  rw [State.pop_error s h]
  rfl

/-! ### Memory instructions -/

theorem exec_ldB_ok (x : Nibble) (s : State) (h : s.dataAddr + 2 ≤ 4095) :
    exec (.ldB x) s
      = .next (s.advance.setMem (Memory.writeAll s.cfg.font s.mem s.dataAddr (bcdDigits (s.reg x)))) := by
  simp only [exec, execLdB]
  rw [State.writeBytes_ok s.advance (Or.inr (by simp only [bcdDigits, List.length_cons, List.length_nil]; omega))]
  rfl

theorem exec_ldB_fault (x : Nibble) (s : State) (h : 4096 ≤ s.dataAddr + 2) :
    exec (.ldB x) s = .next (s.takeFault (.addressOutOfRange (max s.dataAddr 4096))) := by
  simp only [exec, execLdB]
  rw [State.writeBytes_error s.advance (by simp [bcdDigits])
    (by simp only [bcdDigits, List.length_cons, List.length_nil]; omega)]
  rfl

theorem exec_stRegs_ok (x : Nibble) (s : State) (h : s.dataAddr + x.toNat ≤ 4095) :
    exec (.stRegs x) s
      = .next ((s.advance.setMem (Memory.writeAll s.cfg.font s.mem s.dataAddr (s.blockOfRegs x))).setI (s.pastBlock x)) := by
  simp only [exec, execStRegs]
  rw [State.writeBytes_ok s.advance (Or.inr (by rw [State.length_blockOfRegs]; omega))]
  rfl

theorem exec_stRegs_fault (x : Nibble) (s : State) (h : 4096 ≤ s.dataAddr + x.toNat) :
    exec (.stRegs x) s = .next (s.takeFault (.addressOutOfRange (max s.dataAddr 4096))) := by
  have hn : s.blockOfRegs x ≠ [] := fun e => by simpa using congrArg List.length e
  simp only [exec, execStRegs]
  rw [State.writeBytes_error s.advance hn (by rw [State.length_blockOfRegs]; omega)]
  rfl

theorem exec_ldRegs_ok (x : Nibble) (s : State) (h : s.dataAddr + x.toNat ≤ 4095) :
    exec (.ldRegs x) s
      = .next ((s.advance.loadRegsFrom 0 ((List.range (x.toNat + 1)).map fun k => s.byteAt (s.dataAddr + k))).setI
          (s.pastBlock x)) := by
  simp only [exec, execLdRegs]
  rw [State.readBytes_ok s (Or.inr (by omega))]
  rfl

theorem exec_ldRegs_fault (x : Nibble) (s : State) (h : 4096 ≤ s.dataAddr + x.toNat) :
    exec (.ldRegs x) s = .next (s.takeFault (.addressOutOfRange (max s.dataAddr 4096))) := by
  simp only [exec, execLdRegs]
  rw [State.readBytes_error s (by omega) (by omega)]
  rfl

/-! ### Drawing -/

theorem exec_drw_ok (x y n : Nibble) (s : State) (h : n = 0 ∨ s.dataAddr + n.toNat ≤ 4096) :
    exec (.drw x y n) s
      = .next ((s.advance.setDisp (blit s.disp (s.reg y).toNat (s.reg x).toNat (s.sprite n)).1).setReg vf
          (collisionFlag (blit s.disp (s.reg y).toNat (s.reg x).toNat (s.sprite n)).2)) := by
  have h' : n.toNat = 0 ∨ s.dataAddr + n.toNat ≤ 4096 := h.imp (fun e => by rw [e]; rfl) id
  simp only [exec, execDrw]
  rw [State.readBytes_ok s h']
  rfl

theorem exec_drw_fault (x y n : Nibble) (s : State) (hn : 0 < n.toNat) (h : 4096 < s.dataAddr + n.toNat) :
    exec (.drw x y n) s = .next (s.takeFault (.addressOutOfRange (max s.dataAddr 4096))) := by
  simp only [exec, execDrw]
  rw [State.readBytes_error s hn h]
  rfl

/-! ### The commit of any instruction -/

/-- Two states agree in all that an instruction which does not fault leaves alone. -/
structure Kept (s t : State) : Prop where
  fault : t.fault = s.fault
  cfg : t.cfg = s.cfg
  input : t.input = s.input
  schedule : t.schedule = s.schedule
  draws : t.draws = s.draws

/-- Everything an instruction can do to FAULT, the parameters and the environment: it leaves them alone, or it faults, if it is
one that can, and answers the state it started from with the fault entered (60_exceptions.md R255, R257). -/
theorem exec_cases {i : Instr} {s t : State} (h : exec i s = .next t) :
    Kept s t ∨ i.canFault = true ∧ ∃ f, t = s.takeFault f := by
  have ok : ∀ u : State, exec i s = .next u → Kept s u → Kept s t := by
    intro u e hu
    rw [e] at h
    injection h with h
    exact h ▸ hu
  have fault : ∀ f, i.canFault = true → exec i s = .next (s.takeFault f) →
      i.canFault = true ∧ ∃ f, t = s.takeFault f := by
    intro f hc e
    rw [e] at h
    injection h with h
    exact ⟨hc, f, h.symm⟩
  cases i
  case ret =>
    rcases List.eq_nil_or_concat s.stack with hs | ⟨l, w, hs⟩
    · exact Or.inr (fault _ rfl (exec_ret_fault s hs))
    · exact Or.inl (ok _ (exec_ret_ok s (hs.trans List.concat_eq_append)) ⟨rfl, rfl, rfl, rfl, rfl⟩)
  case call nnn =>
    rcases Nat.lt_or_ge s.stack.length s.cfg.stackCapacity with hs | hs
    · exact Or.inl (ok _ (exec_call_ok nnn s hs) ⟨rfl, rfl, rfl, rfl, rfl⟩)
    · exact Or.inr (fault _ rfl (exec_call_fault nnn s hs))
  case ldB x =>
    rcases Nat.lt_or_ge 4095 (s.dataAddr + 2) with hs | hs
    · exact Or.inr (fault _ rfl (exec_ldB_fault x s hs))
    · exact Or.inl (ok _ (exec_ldB_ok x s hs) ⟨rfl, rfl, rfl, rfl, rfl⟩)
  case stRegs x =>
    rcases Nat.lt_or_ge 4095 (s.dataAddr + x.toNat) with hs | hs
    · exact Or.inr (fault _ rfl (exec_stRegs_fault x s hs))
    · exact Or.inl (ok _ (exec_stRegs_ok x s hs) ⟨rfl, rfl, rfl, rfl, rfl⟩)
  case ldRegs x =>
    rcases Nat.lt_or_ge 4095 (s.dataAddr + x.toNat) with hs | hs
    · exact Or.inr (fault _ rfl (exec_ldRegs_fault x s hs))
    · obtain ⟨w, hw⟩ := State.loadRegsFrom_frame ((List.range (x.toNat + 1)).map fun k => s.byteAt (s.dataAddr + k)) s.advance 0
      exact Or.inl (ok _ (exec_ldRegs_ok x s hs) (by rw [hw]; exact ⟨rfl, rfl, rfl, rfl, rfl⟩))
  case drw x y n =>
    by_cases hs : n = 0 ∨ s.dataAddr + n.toNat ≤ 4096
    · exact Or.inl (ok _ (exec_drw_ok x y n s hs) ⟨rfl, rfl, rfl, rfl, rfl⟩)
    · have hn : n.toNat ≠ 0 := fun e => hs (Or.inl (BitVec.eq_of_toNat_eq e))
      exact Or.inr (fault _ rfl (exec_drw_fault x y n s (by omega) (by omega)))
  case ldVxK x => exact Or.inl (ok _ rfl (by split <;> constructor <;> simp))
  all_goals exact Or.inl (ok _ rfl (by constructor <;> first | rfl | simp))

/-- What an instruction can do to FAULT. -/
theorem exec_fault_cases {i : Instr} {s t : State} (h : exec i s = .next t) :
    t.fault = s.fault ∨ i.canFault = true ∧ ∃ f, t = s.takeFault f :=
  (exec_cases h).imp_left Kept.fault

/-- No event touches what the environment still has to do, nor a parameter. -/
theorem runEvent_environment {e : Event} {u t : State} (h : runEvent e u = .next t) :
    t.cfg = u.cfg ∧ t.schedule = u.schedule ∧ t.draws = u.draws := by
  cases e with
  | step inp =>
    rcases stepUnit_cases h with ⟨-, h⟩ | ⟨-, -, h⟩ | ⟨-, -, -, h⟩ | ⟨-, -, i, -, h⟩
    · cases h; exact ⟨rfl, rfl, rfl⟩
    · cases h; exact ⟨rfl, rfl, rfl⟩
    · cases h; exact ⟨rfl, rfl, rfl⟩
    · rcases exec_cases h.symm with k | ⟨-, f, rfl⟩
      · exact ⟨k.cfg, k.schedule, k.draws⟩
      · exact ⟨rfl, rfl, rfl⟩
  | tick => cases h; exact ⟨rfl, rfl, rfl⟩
  | reset image =>
    injection h with h
    subst h
    simp only [State.resetWith]
    split <;> exact ⟨rfl, rfl, rfl⟩

end Sys2Proof.Machine
end

