-- ==== Sys2Proof/Certificates/Slice0/Obligations.lean ====
section
/-! DEFINITION. The statements for the provers, from the numbered rules of spec/. A clause that rests on a decision of
spec/92_eei_decisions.md or on an entry of the assumption log says so in its docstring. -/

namespace Sys2Proof.Claims

open Sys2Proof.Machine

/-- The instruction completes: it answers a next state in which `post` holds and nothing but `changed` has changed. -/
def Completes (i : Instr) (s : State) (changed : Piece → Prop) (post : State → Prop) : Prop :=
  ∃ t, exec i s = .next t ∧ post t ∧ OnlyChanged changed s t

/-- A register instruction of one destination: `V[x]` as `result` says, `PC` past the instruction, nothing else changed. -/
def WritesReg (i : Instr) (s : State) (x : Nibble) (result : Byte → Prop) : Prop :=
  Completes i s (fun p => p = .pc ∨ p = .reg x) fun t => result (t.reg x) ∧ t.pc = s.pc + 2

/-- A flag-writing instruction: `V[x]` ends with `result`, VF with `flag` unless it is the destination, `PC` past the
instruction, nothing else changed. -/
def WritesFlagAndReg (i : Instr) (s : State) (x : Nibble) (flag result : Nat) : Prop :=
  Completes i s (fun p => p = .pc ∨ p = .reg x ∨ p = .reg vf) fun t =>
    (t.reg x).toNat = result ∧ (x ≠ vf → (t.reg vf).toNat = flag) ∧ t.pc = s.pc + 2

/-- A skip: `PC` at `ipc + 4` when the condition holds and at `ipc + 2` when not, nothing else changed. -/
def Skips (i : Instr) (s : State) (condition : Prop) : Prop :=
  Completes i s (fun p => p = .pc) fun t => (condition → t.pc = s.pc + 4) ∧ (¬ condition → t.pc = s.pc + 2)

/-- The instruction faults precisely: a next state with FAULT set and nothing else changed (60_exceptions.md R255). -/
def Faults (i : Instr) (s : State) (code : FaultCode) (info : Nat) : Prop :=
  Completes i s (fun p => p = .fault) fun t => t.fault.code = code ∧ t.fault.info.toNat = info

/-- The next event is a STEP with these inputs, and `before` is the state the step unit starts from: the one with that event
taken off the schedule (that the events stand in State: the model's choice, assumption log 1 to 3). -/
def NextIsStep (s : State) (inp : StepInput) (before : State) : Prop := s.nextEvent = (.step inp, before)

/-- The model steps from `s` to `t` take exactly these events, in this order, one a step. -/
def RunsThrough : List Event → State → State → Prop
  | [], s, t => t = s
  | e :: rest, s, t => ∃ u v, s.nextEvent = (e, u) ∧ step s = runEvent e u ∧ step s = .next v ∧ RunsThrough rest v t

/-- The table of 30_encoding.md R100, row by row, on the word as a number. -/
def UnrecognisedWord (w : Word) : Prop :=
  (w.toNat / 4096 = 0x0 ∧ w ≠ 0x00E0 ∧ w ≠ 0x00EE) ∨
  (w.toNat / 4096 = 0x5 ∧ w.toNat % 16 ≠ 0) ∨
  (w.toNat / 4096 = 0x8 ∧ w.toNat % 16 ∈ [0x8, 0x9, 0xA, 0xB, 0xC, 0xD, 0xF]) ∨
  (w.toNat / 4096 = 0x9 ∧ w.toNat % 16 ≠ 0) ∨
  (w.toNat / 4096 = 0xE ∧ w.toNat % 256 ∉ [0x9E, 0xA1]) ∨
  (w.toNat / 4096 = 0xF ∧ w.toNat % 256 ∉ [0x07, 0x0A, 0x15, 0x18, 0x1E, 0x29, 0x33, 0x55, 0x65])

/-- What 10_state.md R32 says of every piece of state after a RESET with this image and this font, memory included. -/
structure HasResetValues (font : Vector Byte 80) (image : List Byte) (t : State) : Prop where
  mem : ∀ a, (h : a < 4096) → t.memRead a = .ok
    (if hf : a < 80 then font[a]
     else if 0x200 ≤ a ∧ a < 0x200 + image.length then image.getD (a - 0x200) 0 else 0)
  v : ∀ k, t.reg k = 0
  i : t.i = 0
  pc : t.pc = 0x200
  dt : t.dt = 0
  st : t.st = 0
  stack : t.stack = []
  disp : ∀ r c, pixel t.disp r c = false

/-- The model's own pieces, which a STEP changes whatever it does: the inputs it samples and what the environment still has to
do (assumption log 1, 3). -/
def ownFields (p : Piece) : Prop :=
  p = .environment ∨ p = .keys ∨ p = .randomByte ∨ p = .absentKey ∨ p = .keyChoice

/-- The digit of a byte that `Fx33` stores at offset `k`: 0 the hundreds, 1 the tens, 2 the ones (R193). -/
def decimalDigit (b : Byte) (k : Nat) : Nat := b.toNat / 10 ^ (2 - k) % 10

/-- A fetch from `t` at any address finds `value k` wherever one of its two bytes lies at offset `k < n` from `base`; the byte
at the lower address is the high one (R67). -/
def FetchFinds (t : State) (base n : Nat) (value : Nat → Nat) : Prop :=
  ∀ w : Word, w.toNat ≤ 4094 → ∃ hi lo, (t.setPc w).fetch = .ok (wordOfBytes hi lo) ∧
    ∀ k < n, (w.toNat = base + k → hi.toNat = value k) ∧ (w.toNat + 1 = base + k → lo.toNat = value k)

end Sys2Proof.Claims

open Sys2Proof Sys2Proof.Machine Sys2Proof.Claims

/-! ### Encoding -/

/-- R95 and the fields of R91: decoding the word of an instruction gives the instruction back, for all 34 and every operand
value (R102); and so do its two bytes in memory order (R67), whatever follows them, which is handed back. -/
def Obligations.DecodeOfEncode : Prop :=
  ∀ i, decodeWord (encodeWord i) = .ok i ∧ ∀ rest, decodeBytes (encodeBytes i ++ rest) = .ok (i, rest)

/-- R94: a word that decodes is the word of the instruction it decodes to: no bit of a recognised word is dropped. For families
0, 5 and 9 this rests on decisions D8 and D9 (assumption log 9). -/
def Obligations.EncodeOfDecode : Prop := ∀ w i, decodeWord w = .ok i → encodeWord i = w

/-- R95: "A word `w` selects the row whose `(w & mask) == match`". -/
def Obligations.DecoderSelectsTheMatchingRow : Prop :=
  ∀ w r, r ∈ opcodeMap → (w &&& r.mask = r.pattern ↔ ∃ i, decodeWord w = .ok i ∧ i.mnemonic = r.mnemonic)

/-- R94: "No two patterns of rule R95 overlap". -/
def Obligations.NoTwoRowsOverlap : Prop :=
  ∀ w r q, r ∈ opcodeMap → q ∈ opcodeMap → w &&& r.mask = r.pattern → w &&& q.mask = q.pattern → r = q

/-- R100: the decoder rejects exactly the words of its table. The rows of families 0, 5 and 9 rest on decisions D8 and D9
(assumption log 9). -/
def Obligations.RejectedWordsAreThoseOfTheTable : Prop :=
  ∀ w, (∃ e, decodeWord w = .error e) ↔ UnrecognisedWord w

/-- R95: one word of each shape, written out bit by bit from the table. -/
def Obligations.WordsWrittenOutDecode : Prop :=
  decodeWord 0b0000000011100000 = .ok .cls ∧
  decodeWord 0b0010101010111100 = .ok (.call 0b101010111100) ∧
  decodeWord 0b0111000111111110 = .ok (.addImm 0b0001 0b11111110) ∧
  decodeWord 0b1000101001010111 = .ok (.subn 0b1010 0b0101) ∧
  decodeWord 0b1101000100101111 = .ok (.drw 0b0001 0b0010 0b1111) ∧
  decodeWord 0b1110011110100001 = .ok (.sknp 0b0111) ∧
  decodeWord 0b1111111100001010 = .ok (.ldVxK 0b1111)

/-! ### Control transfer -/

/-- R140. -/
def Obligations.JumpLoadsTarget : Prop :=
  ∀ nnn : Addr, decodeWord (0x1#4 ++ nnn) = .ok (.jp nnn) ∧
    ∀ s : State, Completes (.jp nnn) s (fun p => p = .pc) fun t => t.pc.toNat = nnn.toNat

/-- R141, where the stack has room. -/
def Obligations.CallPushesReturnAddress : Prop :=
  ∀ (nnn : Addr) (s : State), s.stack.length < s.cfg.stackCapacity →
    Completes (.call nnn) s (fun p => p = .pc ∨ p = .stack) fun t =>
      t.pc.toNat = nnn.toNat ∧ t.stack = s.stack ++ [s.pc + 2]

/-- R142, where the stack is not empty. -/
def Obligations.ReturnPopsLastEntry : Prop :=
  ∀ (s : State) (rest : List Word) (r : Word), s.stack = rest ++ [r] →
    Completes .ret s (fun p => p = .pc ∨ p = .stack) fun t => t.pc = r ∧ t.stack = rest

/-- R252, R253 with the precise entry of R255 (decision D7, assumption log 8): a call on a full stack and a return on an
empty one fault with the address of the instruction, which is the info decision D19 gives these faults (assumption log
17). -/
def Obligations.StackFaultsRecordTheInstruction : Prop :=
  (∀ (nnn : Addr) (s : State), s.cfg.stackCapacity ≤ s.stack.length → Faults (.call nnn) s .stackOverflow s.pc.toNat) ∧
  (∀ s : State, s.stack = [] → Faults .ret s .stackUnderflow s.pc.toNat)

/-- R143. -/
def Obligations.JumpWithOffsetAddsV0 : Prop :=
  ∀ nnn : Addr, decodeWord (0xB#4 ++ nnn) = .ok (.jpV0 nnn) ∧
    ∀ s : State, Completes (.jpV0 nnn) s (fun p => p = .pc) fun t => t.pc.toNat = nnn.toNat + (s.reg 0).toNat

/-- R144, R145. -/
def Obligations.SkipsOnImmediate : Prop :=
  ∀ (x : Nibble) (nn : Byte),
    decodeWord (0x3#4 ++ x ++ nn) = .ok (.seImm x nn) ∧ decodeWord (0x4#4 ++ x ++ nn) = .ok (.sneImm x nn) ∧
    ∀ s : State, Skips (.seImm x nn) s (s.reg x = nn) ∧ Skips (.sneImm x nn) s (s.reg x ≠ nn)

/-- R146, R147. -/
def Obligations.SkipsOnRegisters : Prop :=
  ∀ x y : Nibble,
    decodeWord (0x5#4 ++ x ++ y ++ 0x0#4) = .ok (.seReg x y) ∧ decodeWord (0x9#4 ++ x ++ y ++ 0x0#4) = .ok (.sneReg x y) ∧
    ∀ s : State, Skips (.seReg x y) s (s.reg x = s.reg y) ∧ Skips (.sneReg x y) s (s.reg x ≠ s.reg y)

/-- R148: a call and a return that finds the stack the call left put `PC` after the call and the stack back. -/
def Obligations.SubroutineRoundTrip : Prop :=
  ∀ (nnn : Addr) (s : State), s.stack.length < s.cfg.stackCapacity →
    ∃ t, exec (.call nnn) s = .next t ∧
      ∀ u : State, u.stack = t.stack → ∃ r, exec .ret u = .next r ∧ r.pc = s.pc + 2 ∧ r.stack = s.stack

/-- R140 with the end of a run suggested in decision D22 (assumption log 20): from rest a STEP changes nothing but the output
`unk` (R129, decision D24; held in State: assumption log 4) and the model's own fields (assumption log 1, 3). -/
def Obligations.RestIsStable : Prop :=
  ∀ (s : State) (inp : StepInput) (u : State), s.atRest = true → NextIsStep s inp u →
    ∃ t, step s = .next t ∧ OnlyChanged (fun p => p = .unk ∨ ownFields p) s t ∧ t.atRest = true

/-! ### Registers -/

/-- R160, R161, R162. -/
def Obligations.LoadAddCopy : Prop :=
  (∀ (x : Nibble) (nn : Byte),
    decodeWord (0x6#4 ++ x ++ nn) = .ok (.ldImm x nn) ∧ decodeWord (0x7#4 ++ x ++ nn) = .ok (.addImm x nn) ∧
    ∀ s : State, WritesReg (.ldImm x nn) s x (fun b => b = nn) ∧
      WritesReg (.addImm x nn) s x (fun b => b.toNat = ((s.reg x).toNat + nn.toNat) % 256)) ∧
  (∀ x y : Nibble,
    decodeWord (0x8#4 ++ x ++ y ++ 0x0#4) = .ok (.ldReg x y) ∧
    ∀ s : State, WritesReg (.ldReg x y) s x (fun b => b = s.reg y))

/-- R163, R164, R165, bit by bit; VF keeps its value unless it is the destination. -/
def Obligations.LogicBitByBit : Prop :=
  ∀ x y : Nibble,
    decodeWord (0x8#4 ++ x ++ y ++ 0x1#4) = .ok (.orReg x y) ∧ decodeWord (0x8#4 ++ x ++ y ++ 0x2#4) = .ok (.andReg x y) ∧
    decodeWord (0x8#4 ++ x ++ y ++ 0x3#4) = .ok (.xorReg x y) ∧
    ∀ s : State, WritesReg (.orReg x y) s x (fun b => ∀ j < 8, b.getLsbD j = ((s.reg x).getLsbD j || (s.reg y).getLsbD j)) ∧
      WritesReg (.andReg x y) s x (fun b => ∀ j < 8, b.getLsbD j = ((s.reg x).getLsbD j && (s.reg y).getLsbD j)) ∧
      WritesReg (.xorReg x y) s x (fun b => ∀ j < 8, b.getLsbD j = ((s.reg x).getLsbD j ^^ (s.reg y).getLsbD j))

/-- R166, for registers other than VF (FlagWritersWithVf covers VF). -/
def Obligations.AddSetsCarry : Prop :=
  ∀ x y : Nibble, decodeWord (0x8#4 ++ x ++ y ++ 0x4#4) = .ok (.addReg x y) ∧
    ∀ s : State, x ≠ vf → y ≠ vf →
      WritesFlagAndReg (.addReg x y) s x (if 255 < (s.reg x).toNat + (s.reg y).toNat then 1 else 0)
        (((s.reg x).toNat + (s.reg y).toNat) % 256)

/-- R167, R169, for registers other than VF (FlagWritersWithVf covers VF). -/
def Obligations.SubtractSetsNoBorrow : Prop :=
  ∀ x y : Nibble, decodeWord (0x8#4 ++ x ++ y ++ 0x5#4) = .ok (.sub x y) ∧
    decodeWord (0x8#4 ++ x ++ y ++ 0x7#4) = .ok (.subn x y) ∧
    ∀ s : State, x ≠ vf → y ≠ vf →
      WritesFlagAndReg (.sub x y) s x (if (s.reg x).toNat < (s.reg y).toNat then 0 else 1)
        (((s.reg x).toNat + 256 - (s.reg y).toNat) % 256) ∧
      WritesFlagAndReg (.subn x y) s x (if (s.reg y).toNat < (s.reg x).toNat then 0 else 1)
        (((s.reg y).toNat + 256 - (s.reg x).toNat) % 256)

/-- R168, R170, for registers other than VF (FlagWritersWithVf covers VF). -/
def Obligations.ShiftsTakeVy : Prop :=
  ∀ x y : Nibble, decodeWord (0x8#4 ++ x ++ y ++ 0x6#4) = .ok (.shr x y) ∧
    decodeWord (0x8#4 ++ x ++ y ++ 0xE#4) = .ok (.shl x y) ∧
    ∀ s : State, x ≠ vf → y ≠ vf →
      WritesFlagAndReg (.shr x y) s x ((s.reg y).toNat % 2) ((s.reg y).toNat / 2) ∧
      WritesFlagAndReg (.shl x y) s x ((s.reg y).toNat / 128) ((s.reg y).toNat * 2 % 256)

/-- R172 where VF is an operand or the destination: operands first, then VF, then `V[x]`, so a destination VF ends with the
result. Rests on decision D13 (assumption log 10). -/
def Obligations.FlagWritersWithVf : Prop :=
  ∀ (x y : Nibble) (s : State), x = vf ∨ y = vf →
    WritesFlagAndReg (.addReg x y) s x (if 255 < (s.reg x).toNat + (s.reg y).toNat then 1 else 0)
      (((s.reg x).toNat + (s.reg y).toNat) % 256) ∧
    WritesFlagAndReg (.sub x y) s x (if (s.reg x).toNat < (s.reg y).toNat then 0 else 1)
      (((s.reg x).toNat + 256 - (s.reg y).toNat) % 256) ∧
    WritesFlagAndReg (.subn x y) s x (if (s.reg y).toNat < (s.reg x).toNat then 0 else 1)
      (((s.reg y).toNat + 256 - (s.reg x).toNat) % 256) ∧
    WritesFlagAndReg (.shr x y) s x ((s.reg y).toNat % 2) ((s.reg y).toNat / 2) ∧
    WritesFlagAndReg (.shl x y) s x ((s.reg y).toNat / 128) ((s.reg y).toNat * 2 % 256)

/-- R171: the masked random byte, whatever byte the STEP samples; that `rnd` is an unconstrained input is decision D16
(assumption log 3). -/
def Obligations.RandomIsMasked : Prop :=
  ∀ (x : Nibble) (nn : Byte) (s : State), WritesReg (.rnd x nn) s x fun b =>
    ∀ j < 8, b.getLsbD j = (s.input.rnd.getLsbD j && nn.getLsbD j)

/-- R22: an instruction that changes VF is one of the six that write it as a flag, or has VF as its destination; and the six
leave 0 or 1 there when VF is not the destination and they have not faulted (the draw of no bytes: decision D12, assumption log
14). -/
def Obligations.VfChangesOnlyAsFlagOrDestination : Prop :=
  ∀ (i : Instr) (s t : State), exec i s = .next t →
    (t.reg vf ≠ s.reg vf →
      (∃ x y, i = .addReg x y ∨ i = .sub x y ∨ i = .shr x y ∨ i = .subn x y ∨ i = .shl x y ∨ (∃ n, i = .drw x y n)) ∨
      (∃ nn, i = .ldImm vf nn ∨ i = .addImm vf nn ∨ i = .rnd vf nn) ∨
      (∃ y, i = .ldReg vf y ∨ i = .orReg vf y ∨ i = .andReg vf y ∨ i = .xorReg vf y) ∨
      i = .ldVxDt vf ∨ i = .ldVxK vf ∨ i = .ldRegs vf) ∧
    (∀ x y n, (i = .addReg x y ∨ i = .sub x y ∨ i = .shr x y ∨ i = .subn x y ∨ i = .shl x y) ∧ x ≠ vf ∨
        i = .drw x y n ∧ (n = 0 ∨ s.i.toNat + n.toNat ≤ 4096) →
      t.reg vf = 0 ∨ t.reg vf = 1)

/-! ### Address register and memory -/

/-- R190, R192. -/
def Obligations.AddressRegisterLoads : Prop :=
  (∀ nnn : Addr, decodeWord (0xA#4 ++ nnn) = .ok (.ldI nnn) ∧
    ∀ s : State, Completes (.ldI nnn) s (fun p => p = .pc ∨ p = .index) fun t =>
      t.i.toNat = nnn.toNat ∧ t.pc = s.pc + 2) ∧
  (∀ x : Nibble, decodeWord (0xF#4 ++ x ++ 0x29#8) = .ok (.ldF x) ∧
    ∀ s : State, Completes (.ldF x) s (fun p => p = .pc ∨ p = .index) fun t =>
      t.i.toNat = 5 * (s.reg x).toNat ∧ t.pc = s.pc + 2)

/-- R191: modulo 65536 (decision D18, assumption log 12), VF not written, no fault. -/
def Obligations.AddToAddressRegisterWraps : Prop :=
  ∀ (x : Nibble) (s : State), Completes (.addI x) s (fun p => p = .pc ∨ p = .index) fun t =>
    t.i.toNat = (s.i.toNat + (s.reg x).toNat) % 65536 ∧ t.pc = s.pc + 2

/-- R64: the byte interface, both primitives, in range and out of range. -/
def Obligations.ByteInterface : Prop :=
  ∀ (s : State) (a : Nat) (b : Byte),
    (a ≤ 4095 → ∃ t, s.memWrite a b = .ok t ∧ t.memRead a = .ok b ∧ (∀ c, c ≠ a → t.memRead c = s.memRead c) ∧
      ∃ u, s.memRead a = .ok u) ∧
    (4096 ≤ a → s.memWrite a b = .error (.addressOutOfRange a) ∧ s.memRead a = .error (.addressOutOfRange a))

/-- R193 where the three bytes lie in memory: hundreds, tens, ones from `I` up; `I` unchanged. -/
def Obligations.DecimalDigitsStored : Prop :=
  ∀ (x : Nibble) (s : State), s.dataAddr + 2 ≤ 4095 →
    Completes (.ldB x) s (fun p => p = .pc ∨ ∃ k, k < 3 ∧ p = .memByte (s.dataAddr + k)) fun t =>
      t.memRead s.dataAddr = .ok (BitVec.ofNat 8 ((s.reg x).toNat / 100)) ∧
      t.memRead (s.dataAddr + 1) = .ok (BitVec.ofNat 8 ((s.reg x).toNat / 10 % 10)) ∧
      t.memRead (s.dataAddr + 2) = .ok (BitVec.ofNat 8 ((s.reg x).toNat % 10)) ∧ t.pc = s.pc + 2

/-- R194 where the block lies in memory: `V[k]` at `I + k` for `k` = 0 to `x`, and `I` past the block (modulo 65536: decision
D18, assumption log 12). -/
def Obligations.RegistersStored : Prop :=
  ∀ (x : Nibble) (s : State), s.dataAddr + x.toNat ≤ 4095 →
    Completes (.stRegs x) s (fun p => p = .pc ∨ p = .index ∨ ∃ k, k ≤ x.toNat ∧ p = .memByte (s.dataAddr + k)) fun t =>
      (∀ k ≤ x, t.memRead (s.dataAddr + k.toNat) = .ok (s.reg k)) ∧
      t.i.toNat = (s.i.toNat + x.toNat + 1) % 65536 ∧ t.pc = s.pc + 2

/-- R195 where the block lies in memory: `V[k]` from `I + k` for `k` = 0 to `x`, `I` past the block (decision D18, assumption
log 12), memory unchanged. -/
def Obligations.RegistersLoaded : Prop :=
  ∀ (x : Nibble) (s : State), s.dataAddr + x.toNat ≤ 4095 →
    Completes (.ldRegs x) s (fun p => p = .pc ∨ p = .index ∨ ∃ k ≤ x, p = .reg k) fun t =>
      (∀ k ≤ x, s.memRead (s.dataAddr + k.toNat) = .ok (t.reg k)) ∧
      t.i.toNat = (s.i.toNat + x.toNat + 1) % 65536 ∧ t.pc = s.pc + 2

/-- R196, R251: an address above 4095 makes the instruction fault with the lowest such address and do nothing else, so no byte
and no register of the block is written. The addresses are not wrapped (decision D17), the entry is precise (decision D7), the
info is the lowest such address (decision D19), and `Dxyn` faults whether or not the row of the offending byte is clipped
(decision D25) (assumption log 8, 11, 14, 17). -/
def Obligations.MemoryFaultsAreAllOrNothing : Prop :=
  ∀ (s : State) (i : Instr) (n : Nat), (∃ x, i = .ldB x ∧ n = 3) ∨ (∃ x : Nibble, i = .stRegs x ∧ n = x.toNat + 1) ∨
      (∃ x : Nibble, i = .ldRegs x ∧ n = x.toNat + 1) ∨ (∃ x y m, i = .drw x y m ∧ n = m.toNat) →
    1 ≤ n → 4096 ≤ s.dataAddr + (n - 1) →
      Faults i s .addressOutOfRange (if s.dataAddr ≤ 4095 then 4096 else s.dataAddr)

/-- R197: a load from the address a store used returns the stored registers, and both leave `I` past the block (modulo 65536:
decision D18, assumption log 12). -/
def Obligations.StoreThenLoadRestores : Prop :=
  ∀ (x : Nibble) (s : State), s.dataAddr + x.toNat ≤ 4095 →
    ∃ t, exec (.stRegs x) s = .next t ∧ t.i.toNat = (s.i.toNat + x.toNat + 1) % 65536 ∧
      ∀ u : State, (∀ a, u.memRead a = t.memRead a) → u.i = s.i →
        ∃ r, exec (.ldRegs x) u = .next r ∧ (∀ k ≤ x, r.reg k = s.reg k) ∧
          r.i.toNat = (s.i.toNat + x.toNat + 1) % 65536

/-- R73: after `Fx55` and after `Fx33` every fetch reads the stored byte wherever one of its two bytes lies in the stored
block, so a fetch that lies in the block only in part too. -/
def Obligations.FetchSeesStores : Prop :=
  (∀ (x : Nibble) (s : State), s.dataAddr + x.toNat ≤ 4095 → ∃ t, exec (.stRegs x) s = .next t ∧
    FetchFinds t s.dataAddr (x.toNat + 1) fun k => (s.reg (BitVec.ofNat 4 k)).toNat) ∧
  (∀ (x : Nibble) (s : State), s.dataAddr + 2 ≤ 4095 → ∃ t, exec (.ldB x) s = .next t ∧
    FetchFinds t s.dataAddr 3 (decimalDigit (s.reg x)))

/-! ### Display -/

/-- R210. -/
def Obligations.ClearDarkensEveryPixel : Prop :=
  decodeWord 0x00E0 = .ok .cls ∧
  ∀ s : State, Completes .cls s (fun p => p = .pc ∨ ∃ r c, p = .pixel r c) fun t =>
    (∀ r c, pixel t.disp r c = false) ∧ t.pc = s.pc + 2

/-- R212 where the sprite lies in memory, pixel by pixel, clipped and not wrapped: the row-at-a-time blit of the model does
what the spec's pixel loop does. `V[x]` is the column (decision D10), the origin is not reduced (D11), an empty sprite is
legal (D12) (assumption log 13, 14). -/
def Obligations.DrawXorsThePixels : Prop :=
  ∀ (x y n : Nibble) (s : State), n = 0 ∨ s.dataAddr + n.toNat ≤ 4096 →
    Completes (.drw x y n) s
      (fun p => p = .pc ∨ p = .reg vf ∨ ∃ r c, (s.reg y).toNat ≤ r ∧ r < (s.reg y).toNat + n.toNat ∧
        (s.reg x).toNat ≤ c ∧ c < (s.reg x).toNat + 8 ∧ p = .pixel r c) fun t =>
      (∀ r c, r ≤ 31 → c ≤ 63 → pixel t.disp r c
        = (pixel s.disp r c ^^ spriteBit (s.sprite n) (s.reg y).toNat (s.reg x).toNat r c)) ∧
      (t.reg vf = 0 ∨ t.reg vf = 1) ∧
      (t.reg vf = 1 ↔ ∃ r c, r ≤ 31 ∧ c ≤ 63 ∧ pixel s.disp r c = true ∧
        spriteBit (s.sprite n) (s.reg y).toNat (s.reg x).toNat r c = true) ∧
      t.pc = s.pc + 2

/-- R213: VF is 1 after a draw that does not fault exactly when some pixel that was lit is dark, else 0 (for `n` = 0: decision
D12, assumption log 14). -/
def Obligations.CollisionIsALitPixelTurnedOff : Prop :=
  ∀ (x y n : Nibble) (s : State), n = 0 ∨ s.dataAddr + n.toNat ≤ 4096 →
    ∃ t, exec (.drw x y n) s = .next t ∧ (t.reg vf = 0 ∨ t.reg vf = 1) ∧
      (t.reg vf = 1 ↔ ∃ r c, pixel s.disp r c = true ∧ pixel t.disp r c = false)

/-- R214 (decision D12, assumption log 14): an empty sprite draws nothing, reads nothing, clears VF, wherever `I` points. -/
def Obligations.EmptySpriteClearsVf : Prop :=
  ∀ (x y : Nibble) (s : State),
    Completes (.drw x y 0) s (fun p => p = .pc ∨ p = .reg vf) fun t => t.reg vf = 0 ∧ t.pc = s.pc + 2

/-- R215: the same sprite drawn twice at the same place restores the display, and the second draw collides exactly when the
first lit a pixel (for `n` = 0: decision D12, assumption log 14). -/
def Obligations.DrawTwiceRestores : Prop :=
  ∀ (x y n : Nibble) (s : State), x ≠ vf → y ≠ vf → n = 0 ∨ s.dataAddr + n.toNat ≤ 4096 →
    ∃ t u, exec (.drw x y n) s = .next t ∧ exec (.drw x y n) t = .next u ∧ u.disp = s.disp ∧
      (u.reg vf = 1 ↔ ∃ r c, pixel s.disp r c = false ∧ pixel t.disp r c = true)

/-! ### Keypad and timers -/

/-- R230, R231, R232: the two key skips, with the sampled level for a key 0 to 15 and the environment's draw, whatever it is,
above 15 (decision D14, assumption log 15). -/
def Obligations.KeySkips : Prop :=
  ∀ (x : Nibble) (s : State),
    (∀ k, (s.reg x).toNat = k → k ≤ 15 →
      Skips (.skp x) s (s.input.keys.getLsbD k = true) ∧ Skips (.sknp x) s (s.input.keys.getLsbD k = false)) ∧
    (16 ≤ (s.reg x).toNat →
      Skips (.skp x) s (s.input.absentKey = true) ∧ Skips (.sknp x) s (s.input.absentKey = false))

/-- R233, R235, R236. -/
def Obligations.TimersReadAndSet : Prop :=
  ∀ x : Nibble, decodeWord (0xF#4 ++ x ++ 0x07#8) = .ok (.ldVxDt x) ∧ decodeWord (0xF#4 ++ x ++ 0x15#8) = .ok (.ldDtVx x) ∧
    decodeWord (0xF#4 ++ x ++ 0x18#8) = .ok (.ldStVx x) ∧
    ∀ s : State, WritesReg (.ldVxDt x) s x (fun b => b = s.dt) ∧
      Completes (.ldDtVx x) s (fun p => p = .pc ∨ p = .delay) (fun t => t.dt = s.reg x ∧ t.pc = s.pc + 2) ∧
      Completes (.ldStVx x) s (fun p => p = .pc ∨ p = .sound) (fun t => t.st = s.reg x ∧ t.pc = s.pc + 2)

/-- R234: with no key pressed the state is exactly the one before; else `V[x]` receives the number of a pressed key. That the
key is delivered in `V[x]` is decision D15 and general knowledge (GK3) (assumption log 16). -/
def Obligations.WaitForKey : Prop :=
  ∀ (x : Nibble) (s : State),
    (s.input.keys = 0 → exec (.ldVxK x) s = .next s) ∧
    (s.input.keys ≠ 0 → WritesReg (.ldVxK x) s x fun b => b.toNat ≤ 15 ∧ s.input.keys.getLsbD b.toNat = true)

/-- R234: which of several pressed keys is delivered is a draw: for every pressed key there is an environment that delivers
it (decision D15, assumption log 16). -/
def Obligations.EveryPressedKeyCanBeDelivered : Prop :=
  ∀ (x : Nibble) (s : State) (k : Nat), k ≤ 15 → s.input.keys.getLsbD k = true →
    ∃ choice t, exec (.ldVxK x) (s.setInput { s.input with keyChoice := choice }) = .next t ∧ (t.reg x).toNat = k

/-- R39, in every state, a faulted one included (decision D23, assumption log 18): each timer falls by one and stops at 0, and
nothing else of the spec's state changes. What it says beside R39 is the model's choice: that a TICK keeps the output `unk`
(decision D24, assumption log 4) and the sampled inputs (assumption log 1), and how the schedule and the count of free values
move (assumption log 1 to 3). -/
def Obligations.TickCountsDown : Prop :=
  ∀ s u : State, s.nextEvent = (.tick, u) →
    ∃ t, step s = .next t ∧ t.dt.toNat = s.dt.toNat - 1 ∧ t.st.toNat = s.st.toNat - 1 ∧
      t.schedule = u.schedule ∧ t.draws = u.draws ∧
      OnlyChanged (fun p => p = .delay ∨ p = .sound ∨ p = .environment) s t

/-- R130, R237: a timer changes only by a TICK, by a RESET, or by a STEP that runs `Fx15` (delay) or `Fx18` (sound). -/
def Obligations.TimersChangeOnlyByTickOrTheirInstruction : Prop :=
  ∀ (s t : State) (inp : StepInput) (u : State), NextIsStep s inp u → step s = .next t →
    (t.dt ≠ s.dt → ∃ x, s.fetch = .ok (encodeWord (.ldDtVx x))) ∧
    (t.st ≠ s.st → ∃ x, s.fetch = .ok (encodeWord (.ldStVx x)))

/-! ### The step -/

/-- R40, R41, R42: every order of events is a run, one event a step. First, any finite order: the events of the schedule are
taken as they stand. Second, an endless one: with the schedule run out the run goes on, however far, with the events of
`Config.freeEvent`, of which nothing is known, so that STEPs, TICKs and RESETs for ever, in any order, are among what the model
admits (that the order is held in State, and what comes after it: the model's choice, assumption log 1 to 3). -/
def Obligations.EveryOrderOfEventsIsARun : Prop :=
  (∀ (events rest : List Event) (s : State), s.schedule = events ++ rest →
    ∃ t, RunsThrough events s t ∧ t.schedule = rest ∧ t.draws = s.draws) ∧
  (∀ (n : Nat) (s : State), s.schedule = [] →
    ∃ t, RunsThrough ((List.range n).map fun k => Config.freeEvent (s.draws + k)) s t ∧
      t.schedule = [] ∧ t.draws = s.draws + n)

/-- R67: the byte at `PC` is the high byte of the opcode and the byte at `PC + 1` the low byte. -/
def Obligations.FetchIsBigEndian : Prop :=
  ∀ s : State, s.pc.toNat ≤ 4094 → ∃ w, s.fetch = .ok w ∧
    s.memRead s.pc.toNat = .ok (w.extractLsb' 8 8) ∧ s.memRead (s.pc.toNat + 1) = .ok (w.extractLsb' 0 8)

/-- R120, R121, R124: when the machine is not halted and the bytes at `PC` decode to `i`, the step is `exec i` on the state with
the event taken, the inputs sampled (R35; that the events and the sampled inputs are fields of State is the model's choice,
assumption log 1) and the output `unk` low (R129, decision D24; that State holds it is the model's choice, assumption log 4);
`exec` itself moves `PC` past the instruction (R122). -/
def Obligations.StepRunsTheDecodedInstruction : Prop :=
  ∀ (s : State) (inp : StepInput) (u : State) (i : Instr) (hi lo : Byte), NextIsStep s inp u →
    s.fault.code = .noFault → s.pc.toNat ≤ 4094 →
    s.memRead s.pc.toNat = .ok hi → s.memRead (s.pc.toNat + 1) = .ok lo → decodeWord (wordOfBytes hi lo) = .ok i →
    step s = exec i ((u.setInput inp).setUnk false)

/-- R128, R129: a word of the table of R100 advances `PC`, raises `unk` and changes nothing else (the table's families 0, 5, 9:
decisions D8, D9, assumption log 9; `unk`: decision D24, assumption log 4; the model's own fields: assumption log 1, 3). -/
def Obligations.UnrecognisedWordIsANoOp : Prop :=
  ∀ (s : State) (inp : StepInput) (u : State) (w : Word), NextIsStep s inp u →
    s.fault.code = .noFault → s.fetch = .ok w → UnrecognisedWord w →
    ∃ t, step s = .next t ∧ t.pc = s.pc + 2 ∧ t.unk = true ∧
      OnlyChanged (fun p => p = .pc ∨ p = .unk ∨ ownFields p) s t

/-- R121, R251: a fetch past 4094 faults with `PC` as info (decision D19, assumption log 17) and changes nothing else (decision
D7, assumption log 8) but `unk` (R129, decision D24, assumption log 4) and the model's own fields (assumption log 1, 3). -/
def Obligations.FetchPastTheEndFaults : Prop :=
  ∀ (s : State) (inp : StepInput) (u : State), NextIsStep s inp u → s.fault.code = .noFault → 4094 < s.pc.toNat →
    ∃ t, step s = .next t ∧ t.fault.code = .addressOutOfRange ∧ t.fault.info.toNat = s.pc.toNat ∧
      OnlyChanged (fun p => p = .fault ∨ p = .unk ∨ ownFields p) s t

/-- R256, R258: a halted machine keeps FAULT and everything else but the timers, which a TICK still counts (decisions D20, D23,
assumption log 18), until a RESET; `unk` (R129, decision D24, assumption log 4) and the model's own fields (assumption log 1, 3)
may change. -/
def Obligations.HaltedUntilReset : Prop :=
  ∀ s : State, s.fault.code ≠ .noFault → (∀ image, s.nextEvent.1 ≠ .reset image) →
    ∃ t, step s = .next t ∧ OnlyChanged (fun p => p = .delay ∨ p = .sound ∨ p = .unk ∨ ownFields p) s t ∧
      (s.nextEvent.1 ≠ .tick → t.dt = s.dt ∧ t.st = s.st)

/-- R131: every event and every instruction answers a next state: nothing is refused and nothing ends the run. R131 lists a
fault beside the next state; that fault entry is itself a NEXT state, and no step answers Outcome.fault, is the model's choice
(assumption log 8). -/
def Obligations.EveryStepAnswersANextState : Prop :=
  (∀ (i : Instr) (s : State), ∃ t, exec i s = .next t) ∧ ∀ s : State, ∃ t, step s = .next t

/-- R255 (decision D7, assumption log 8): an instruction that changes FAULT changes nothing else. -/
def Obligations.FaultEntryIsPrecise : Prop :=
  ∀ (i : Instr) (s t : State), exec i s = .next t → t.fault ≠ s.fault → OnlyChanged (fun p => p = .fault) s t

/-- The model's own `withFetchWord` (assumption log 21) with R121 and R124: from every state, a word placed to run next that
decodes to `i` makes the very next model step a STEP that runs `i`, with the event taken and the inputs sampled (R35, assumption
log 1) and `unk` low (R129, decision D24, assumption log 4). -/
def Obligations.PlacedWordRunsNext : Prop :=
  ∀ (s : State) (w : Nat) (i : Instr), decodeTableWord 16 w = some i →
    ∃ inp u, NextIsStep (s.withFetchWord 16 w) inp u ∧ step (s.withFetchWord 16 w) = exec i ((u.setInput inp).setUnk false)

/-! ### Reset -/

/-- R32: after the RESET event every piece of state has its value, memory included, for every font and every image that
fits. -/
def Obligations.ResetValues : Prop :=
  ∀ (s u : State) (image : List Byte), s.nextEvent = (.reset image, u) → image.length ≤ 3584 →
    ∃ t, step s = .next t ∧ HasResetValues s.cfg.font image t ∧ t.fault = ⟨.noFault, 0⟩ ∧ t.cfg = s.cfg

/-- R292 (decision D26, assumption log 19; the code and its info: decision D19, assumption log 17): an image that does not fit
leaves the machine halted with code 4 and the length, saturated to 17 bits, and the rest as with an empty image. -/
def Obligations.TooLargeImageHalts : Prop :=
  ∀ (s u : State) (image : List Byte), s.nextEvent = (.reset image, u) → 3585 ≤ image.length →
    ∃ t, step s = .next t ∧ HasResetValues s.cfg.font [] t ∧ t.fault.code = .imageTooLarge ∧
      t.fault.info.toNat = min image.length 131071 ∧ t.cfg = s.cfg

/-- R293, R296: RESET with the empty image from any state with the default parameters (assumption log 6, 7) gives the model's
reset state, `unk` and `input` included (the model's choice: assumption log 1, 4), but for what the environment still has to do
(the model's own fields: assumption log 1 to 3). -/
def Obligations.ResetEventGivesTheResetState : Prop :=
  ∀ s u : State, s.nextEvent = (.reset [], u) → s.cfg = defaultConfig →
    step s = .next ((State.reset.setSchedule u.schedule).setDraws u.draws)

/-! ### Whole-machine rules -/

/-- The invariant holds at reset (R32). -/
def Obligations.ResetMeetsTheInvariant : Prop := State.reset.Inv

/-- Every step of the model, whatever the event, keeps the invariant: memory in canonical form, the stack within
STACK_CAPACITY (R27) and holding values `2nnn` pushed, `PC` within R127, FAULT legal (R250). The canonical form is the model's
own; what info a code can hold rests on decisions D17 and D19 (assumption log 11, 17). -/
def Obligations.EveryStepKeepsTheInvariant : Prop := ∀ s t : State, s.Inv → step s = .next t → t.Inv

/-- R43, column "written by": an instruction either faults, if it can, and changes only FAULT (R255, decision D7, assumption log
8), or changes only the pieces the table gives it and not FAULT. A store is bounded to the stored bytes and a draw to the
sprite's footprint (R212), whose column is `V[x]` and whose origin is not reduced (decisions D10, D11, assumption log 13,
14). -/
def Obligations.OnlyTheTablesWrites : Prop :=
  ∀ (i : Instr) (s t : State), exec i s = .next t →
    OnlyChanged (fun p => p = .fault ∧ i.canFault = true) s t ∨ OnlyChanged (fun p => i.writes s p ∧ p ≠ .fault) s t

/-- R43, column "read by": two states that agree on what an instruction reads give the same value to everything it changes; so
no other piece of state, and no other input or draw, influences it. Beside the table an instruction reads `PC`, `2nnn` the depth
and the capacity (R141), the key instructions their draws (R230, R234; decisions D14, D15, assumption log 15, 16), and `Dxyn`
the pixels of its footprint only (R212; decisions D10, D11, assumption log 13, 14). -/
def Obligations.OnlyTheTablesReads : Prop :=
  ∀ (i : Instr) (s t s' t' : State), (∀ p, i.reads s p → p.same s t) → exec i s = .next s' → exec i t = .next t' →
    ∀ p : Piece, p.same s' t' ∨ (p.same s s' ∧ p.same t t')
end

