-- ==== Sys2Proof/Laws/Decode.lean ====
section
/-! SUPPORT. The fields of a word put together from fields (spec 30_encoding.md R91), and of a word as a number. -/

namespace Sys2Proof.Laws

theorem toNat_concat {m n : Nat} (u : BitVec m) (w : BitVec n) : (u ++ w).toNat = u.toNat * 2 ^ n + w.toNat := by
  rw [BitVec.toNat_append, ← Nat.shiftLeft_add_eq_or_of_lt w.isLt, Nat.shiftLeft_eq]

theorem toNat_nnn (t : Nibble) (a : Addr) : (t ++ a : Word).toNat = t.toNat * 4096 + a.toNat := toNat_concat t a

theorem toNat_xnn (t x : Nibble) (b : Byte) : (t ++ x ++ b : Word).toNat = t.toNat * 4096 + x.toNat * 256 + b.toNat := by
  have h : (t ++ x ++ b : Word).toNat = (t ++ x).toNat * 2 ^ 8 + b.toNat := toNat_concat (t ++ x) b
  rw [h, toNat_concat t x]
  omega

theorem toNat_xyn (t x y n : Nibble) :
    (t ++ x ++ y ++ n : Word).toNat = t.toNat * 4096 + x.toNat * 256 + y.toNat * 16 + n.toNat := by
  have h : (t ++ x ++ y ++ n : Word).toNat = (t ++ x ++ y).toNat * 2 ^ 4 + n.toNat := toNat_concat (t ++ x ++ y) n
  rw [h, toNat_concat (t ++ x) y, toNat_concat t x]
  omega

/-! ### A field as a number -/

theorem toNat_fieldT (w : Word) : (fieldT w).toNat = w.toNat / 4096 := by
  have := w.isLt
  simp only [fieldT, BitVec.extractLsb'_toNat, Nat.shiftRight_eq_div_pow]
  omega

theorem toNat_fieldX (w : Word) : (fieldX w).toNat = w.toNat / 256 % 16 := by
  simp only [fieldX, BitVec.extractLsb'_toNat, Nat.shiftRight_eq_div_pow]

theorem toNat_fieldY (w : Word) : (fieldY w).toNat = w.toNat / 16 % 16 := by
  simp only [fieldY, BitVec.extractLsb'_toNat, Nat.shiftRight_eq_div_pow]

theorem toNat_fieldN (w : Word) : (fieldN w).toNat = w.toNat % 16 := by
  simp only [fieldN, BitVec.extractLsb'_toNat, Nat.shiftRight_zero]

theorem toNat_fieldNn (w : Word) : (fieldNn w).toNat = w.toNat % 256 := by
  simp only [fieldNn, BitVec.extractLsb'_toNat, Nat.shiftRight_zero]

theorem toNat_fieldNnn (w : Word) : (fieldNnn w).toNat = w.toNat % 4096 := by
  simp only [fieldNnn, BitVec.extractLsb'_toNat, Nat.shiftRight_zero]

/-! ### The fields of each shape -/

theorem fieldT_nnn (t : Nibble) (a : Addr) : fieldT (t ++ a) = t := by
  apply BitVec.eq_of_toNat_eq
  rw [toNat_fieldT, toNat_nnn]
  omega

theorem fieldNnn_nnn (t : Nibble) (a : Addr) : fieldNnn (t ++ a) = a := by
  apply BitVec.eq_of_toNat_eq
  rw [toNat_fieldNnn, toNat_nnn]
  omega

theorem fieldT_xnn (t x : Nibble) (b : Byte) : fieldT (t ++ x ++ b) = t := by
  apply BitVec.eq_of_toNat_eq
  rw [toNat_fieldT, toNat_xnn]
  omega

theorem fieldX_xnn (t x : Nibble) (b : Byte) : fieldX (t ++ x ++ b) = x := by
  apply BitVec.eq_of_toNat_eq
  rw [toNat_fieldX, toNat_xnn]
  omega

theorem fieldNn_xnn (t x : Nibble) (b : Byte) : fieldNn (t ++ x ++ b) = b := by
  apply BitVec.eq_of_toNat_eq
  rw [toNat_fieldNn, toNat_xnn]
  omega

theorem fieldT_xyn (t x y n : Nibble) : fieldT (t ++ x ++ y ++ n) = t := by
  apply BitVec.eq_of_toNat_eq
  rw [toNat_fieldT, toNat_xyn]
  omega

theorem fieldX_xyn (t x y n : Nibble) : fieldX (t ++ x ++ y ++ n) = x := by
  apply BitVec.eq_of_toNat_eq
  rw [toNat_fieldX, toNat_xyn]
  omega

theorem fieldY_xyn (t x y n : Nibble) : fieldY (t ++ x ++ y ++ n) = y := by
  apply BitVec.eq_of_toNat_eq
  rw [toNat_fieldY, toNat_xyn]
  omega

theorem fieldN_xyn (t x y n : Nibble) : fieldN (t ++ x ++ y ++ n) = n := by
  apply BitVec.eq_of_toNat_eq
  rw [toNat_fieldN, toNat_xyn]
  omega

/-- The bytes of a word put together again are the word (20_memory.md R67). -/
theorem wordOfBytes_bytesOfWord (w : Word) : wordOfBytes (w.extractLsb' 8 8) (w.extractLsb' 0 8) = w := by
  apply BitVec.eq_of_toNat_eq
  have h : (wordOfBytes (w.extractLsb' 8 8) (w.extractLsb' 0 8)).toNat
      = (w.extractLsb' 8 8).toNat * 2 ^ 8 + (w.extractLsb' 0 8).toNat := toNat_concat _ _
  have := w.isLt
  rw [h]
  simp only [BitVec.extractLsb'_toNat, Nat.shiftRight_eq_div_pow]
  omega

end Sys2Proof.Laws
end

