-- ==== Sys2Proof/Laws/PerInstr.lean ====
section
/-! SUPPORT. Every instruction's word stands in its row of the opcode map (spec 30_encoding.md R95): the family EncodesInRow,
one lemma per constructor. -/

namespace Sys2Proof.Laws

/-! ### The masks of R95 on a word put together from fields -/

theorem nibble_and_ones (t : Nibble) : t &&& 15#4 = t := by revert t; decide

theorem byte_and_ones (b : Byte) : b &&& 255#8 = b := by revert b; decide

theorem mask_family_nnn (t : Nibble) (a : Addr) : ((t ++ a : BitVec 16) &&& 0xF000#16) = t ++ 0#12 := by
  rw [show 0xF000#16 = 0xF#4 ++ 0#12 by decide, BitVec.and_append]
  simp [nibble_and_ones]

theorem mask_family_xnn (t x : Nibble) (nn : Byte) : ((t ++ x ++ nn : BitVec 16) &&& 0xF000#16) = t ++ 0#12 := by
  rw [show 0xF000#16 = 0xF#4 ++ 0#4 ++ 0#8 by decide, BitVec.and_append, BitVec.and_append,
    show (t ++ 0#12 : BitVec 16) = t ++ 0#4 ++ 0#8 by revert t; decide]
  simp [nibble_and_ones]

theorem mask_family_xyn (t x y n : Nibble) : ((t ++ x ++ y ++ n : BitVec 16) &&& 0xF000#16) = t ++ 0#12 := by
  rw [show 0xF000#16 = 0xF#4 ++ 0#4 ++ 0#4 ++ 0#4 by decide, BitVec.and_append, BitVec.and_append, BitVec.and_append,
    show (t ++ 0#12 : BitVec 16) = t ++ 0#4 ++ 0#4 ++ 0#4 by revert t; decide]
  simp [nibble_and_ones]

theorem mask_nibble_key (t x y k : Nibble) :
    ((t ++ x ++ y ++ k : BitVec 16) &&& 0xF00F#16) = t ++ 0#4 ++ 0#4 ++ k := by
  rw [show 0xF00F#16 = 0xF#4 ++ 0#4 ++ 0#4 ++ 0xF#4 by decide, BitVec.and_append, BitVec.and_append, BitVec.and_append]
  simp [nibble_and_ones]

theorem mask_byte_key (t x : Nibble) (kk : Byte) :
    ((t ++ x ++ kk : BitVec 16) &&& 0xF0FF#16) = t ++ 0#4 ++ kk := by
  rw [show 0xF0FF#16 = 0xF#4 ++ 0#4 ++ 0xFF#8 by decide, BitVec.and_append, BitVec.and_append]
  simp [nibble_and_ones, byte_and_ones]

/-! ### The family -/

/-- The instruction's word has its row's fixed bits (R95). -/
def EncodesInRow.Statement (i : Instr) : Prop :=
  ∃ r ∈ opcodeMap, r.mnemonic = i.mnemonic ∧ encodeWord i &&& r.mask = r.pattern

theorem EncodesInRow.cls : EncodesInRow.Statement (.cls) :=
  ⟨⟨"00E0", 0x00E0, 0xFFFF⟩, by decide, rfl, by decide⟩

theorem EncodesInRow.ret : EncodesInRow.Statement (.ret) :=
  ⟨⟨"00EE", 0x00EE, 0xFFFF⟩, by decide, rfl, by decide⟩

theorem EncodesInRow.jp (nnn : Addr) : EncodesInRow.Statement (.jp nnn) :=
  ⟨⟨"1nnn", 0x1000, 0xF000⟩, by decide, rfl, mask_family_nnn _ _⟩

theorem EncodesInRow.call (nnn : Addr) : EncodesInRow.Statement (.call nnn) :=
  ⟨⟨"2nnn", 0x2000, 0xF000⟩, by decide, rfl, mask_family_nnn _ _⟩

theorem EncodesInRow.seImm (x : Nibble) (nn : Byte) : EncodesInRow.Statement (.seImm x nn) :=
  ⟨⟨"3xnn", 0x3000, 0xF000⟩, by decide, rfl, mask_family_xnn _ _ _⟩

theorem EncodesInRow.sneImm (x : Nibble) (nn : Byte) : EncodesInRow.Statement (.sneImm x nn) :=
  ⟨⟨"4xnn", 0x4000, 0xF000⟩, by decide, rfl, mask_family_xnn _ _ _⟩

theorem EncodesInRow.seReg (x : Nibble) (y : Nibble) : EncodesInRow.Statement (.seReg x y) :=
  ⟨⟨"5xy0", 0x5000, 0xF00F⟩, by decide, rfl, mask_nibble_key _ _ _ _⟩

theorem EncodesInRow.ldImm (x : Nibble) (nn : Byte) : EncodesInRow.Statement (.ldImm x nn) :=
  ⟨⟨"6xnn", 0x6000, 0xF000⟩, by decide, rfl, mask_family_xnn _ _ _⟩

theorem EncodesInRow.addImm (x : Nibble) (nn : Byte) : EncodesInRow.Statement (.addImm x nn) :=
  ⟨⟨"7xnn", 0x7000, 0xF000⟩, by decide, rfl, mask_family_xnn _ _ _⟩

theorem EncodesInRow.ldReg (x : Nibble) (y : Nibble) : EncodesInRow.Statement (.ldReg x y) :=
  ⟨⟨"8xy0", 0x8000, 0xF00F⟩, by decide, rfl, mask_nibble_key _ _ _ _⟩

theorem EncodesInRow.orReg (x : Nibble) (y : Nibble) : EncodesInRow.Statement (.orReg x y) :=
  ⟨⟨"8xy1", 0x8001, 0xF00F⟩, by decide, rfl, mask_nibble_key _ _ _ _⟩

theorem EncodesInRow.andReg (x : Nibble) (y : Nibble) : EncodesInRow.Statement (.andReg x y) :=
  ⟨⟨"8xy2", 0x8002, 0xF00F⟩, by decide, rfl, mask_nibble_key _ _ _ _⟩

theorem EncodesInRow.xorReg (x : Nibble) (y : Nibble) : EncodesInRow.Statement (.xorReg x y) :=
  ⟨⟨"8xy3", 0x8003, 0xF00F⟩, by decide, rfl, mask_nibble_key _ _ _ _⟩

theorem EncodesInRow.addReg (x : Nibble) (y : Nibble) : EncodesInRow.Statement (.addReg x y) :=
  ⟨⟨"8xy4", 0x8004, 0xF00F⟩, by decide, rfl, mask_nibble_key _ _ _ _⟩

theorem EncodesInRow.sub (x : Nibble) (y : Nibble) : EncodesInRow.Statement (.sub x y) :=
  ⟨⟨"8xy5", 0x8005, 0xF00F⟩, by decide, rfl, mask_nibble_key _ _ _ _⟩

theorem EncodesInRow.shr (x : Nibble) (y : Nibble) : EncodesInRow.Statement (.shr x y) :=
  ⟨⟨"8xy6", 0x8006, 0xF00F⟩, by decide, rfl, mask_nibble_key _ _ _ _⟩

theorem EncodesInRow.subn (x : Nibble) (y : Nibble) : EncodesInRow.Statement (.subn x y) :=
  ⟨⟨"8xy7", 0x8007, 0xF00F⟩, by decide, rfl, mask_nibble_key _ _ _ _⟩

theorem EncodesInRow.shl (x : Nibble) (y : Nibble) : EncodesInRow.Statement (.shl x y) :=
  ⟨⟨"8xyE", 0x800E, 0xF00F⟩, by decide, rfl, mask_nibble_key _ _ _ _⟩

theorem EncodesInRow.sneReg (x : Nibble) (y : Nibble) : EncodesInRow.Statement (.sneReg x y) :=
  ⟨⟨"9xy0", 0x9000, 0xF00F⟩, by decide, rfl, mask_nibble_key _ _ _ _⟩

theorem EncodesInRow.ldI (nnn : Addr) : EncodesInRow.Statement (.ldI nnn) :=
  ⟨⟨"Annn", 0xA000, 0xF000⟩, by decide, rfl, mask_family_nnn _ _⟩

theorem EncodesInRow.jpV0 (nnn : Addr) : EncodesInRow.Statement (.jpV0 nnn) :=
  ⟨⟨"Bnnn", 0xB000, 0xF000⟩, by decide, rfl, mask_family_nnn _ _⟩

theorem EncodesInRow.rnd (x : Nibble) (nn : Byte) : EncodesInRow.Statement (.rnd x nn) :=
  ⟨⟨"Cxnn", 0xC000, 0xF000⟩, by decide, rfl, mask_family_xnn _ _ _⟩

theorem EncodesInRow.drw (x : Nibble) (y : Nibble) (n : Nibble) : EncodesInRow.Statement (.drw x y n) :=
  ⟨⟨"Dxyn", 0xD000, 0xF000⟩, by decide, rfl, mask_family_xyn _ _ _ _⟩

theorem EncodesInRow.skp (x : Nibble) : EncodesInRow.Statement (.skp x) :=
  ⟨⟨"Ex9E", 0xE09E, 0xF0FF⟩, by decide, rfl, mask_byte_key _ _ _⟩

theorem EncodesInRow.sknp (x : Nibble) : EncodesInRow.Statement (.sknp x) :=
  ⟨⟨"ExA1", 0xE0A1, 0xF0FF⟩, by decide, rfl, mask_byte_key _ _ _⟩

theorem EncodesInRow.ldVxDt (x : Nibble) : EncodesInRow.Statement (.ldVxDt x) :=
  ⟨⟨"Fx07", 0xF007, 0xF0FF⟩, by decide, rfl, mask_byte_key _ _ _⟩

theorem EncodesInRow.ldVxK (x : Nibble) : EncodesInRow.Statement (.ldVxK x) :=
  ⟨⟨"Fx0A", 0xF00A, 0xF0FF⟩, by decide, rfl, mask_byte_key _ _ _⟩

theorem EncodesInRow.ldDtVx (x : Nibble) : EncodesInRow.Statement (.ldDtVx x) :=
  ⟨⟨"Fx15", 0xF015, 0xF0FF⟩, by decide, rfl, mask_byte_key _ _ _⟩

theorem EncodesInRow.ldStVx (x : Nibble) : EncodesInRow.Statement (.ldStVx x) :=
  ⟨⟨"Fx18", 0xF018, 0xF0FF⟩, by decide, rfl, mask_byte_key _ _ _⟩

theorem EncodesInRow.addI (x : Nibble) : EncodesInRow.Statement (.addI x) :=
  ⟨⟨"Fx1E", 0xF01E, 0xF0FF⟩, by decide, rfl, mask_byte_key _ _ _⟩

theorem EncodesInRow.ldF (x : Nibble) : EncodesInRow.Statement (.ldF x) :=
  ⟨⟨"Fx29", 0xF029, 0xF0FF⟩, by decide, rfl, mask_byte_key _ _ _⟩

theorem EncodesInRow.ldB (x : Nibble) : EncodesInRow.Statement (.ldB x) :=
  ⟨⟨"Fx33", 0xF033, 0xF0FF⟩, by decide, rfl, mask_byte_key _ _ _⟩

theorem EncodesInRow.stRegs (x : Nibble) : EncodesInRow.Statement (.stRegs x) :=
  ⟨⟨"Fx55", 0xF055, 0xF0FF⟩, by decide, rfl, mask_byte_key _ _ _⟩

theorem EncodesInRow.ldRegs (x : Nibble) : EncodesInRow.Statement (.ldRegs x) :=
  ⟨⟨"Fx65", 0xF065, 0xF0FF⟩, by decide, rfl, mask_byte_key _ _ _⟩

end Sys2Proof.Laws
end

