-- ==== Sys2Proof/Tests/Slice0.lean ====
section
/-! SUPPORT. Tests of single steps, expected results from spec/95_test_vectors.md (the vector's id stands in each comment) or
worked out from the encodings of 30_encoding.md R95, and a witness for every obligation with hypotheses. -/

namespace Sys2Proof.Tests

open Sys2Proof Sys2Proof.Machine Sys2Proof.Claims

/-! ### Well-formedness: each check refuses an ill-formed term -/

theorem test_wellFormed_capacityZeroRefused : Config.wf { defaultConfig with stackCapacity := 0 } = false := by decide
theorem test_wellFormed_capacityOneAccepted : Config.wf { defaultConfig with stackCapacity := 1 } = true := by decide
theorem test_wellFormed_defaultAccepted : defaultConfig.wf = true := by decide
theorem test_wellFormed_imageTooLongRefused : imageWf (List.replicate 3585 0) = false := by
  rw [imageWf, List.length_replicate]; decide
theorem test_wellFormed_imageLongestAccepted : imageWf (List.replicate 3584 0) = true := by
  rw [imageWf, List.length_replicate]; decide

/-! ### Decoding: for every constructor the word written out bit by bit from R95, with x = 1011, y = 0110, n = 1101,
nn = 01011110, nnn = 101100111101 -/

theorem test_decode_cls : decodeWord 0b0000000011100000 = .ok .cls := by decide
theorem test_decode_ret : decodeWord 0b0000000011101110 = .ok .ret := by decide
theorem test_decode_jp : decodeWord 0b0001101100111101 = .ok (.jp 0b101100111101) := by decide
theorem test_decode_call : decodeWord 0b0010101100111101 = .ok (.call 0b101100111101) := by decide
theorem test_decode_seImm : decodeWord 0b0011101101011110 = .ok (.seImm 0b1011 0b01011110) := by decide
theorem test_decode_sneImm : decodeWord 0b0100101101011110 = .ok (.sneImm 0b1011 0b01011110) := by decide
theorem test_decode_seReg : decodeWord 0b0101101101100000 = .ok (.seReg 0b1011 0b0110) := by decide
theorem test_decode_ldImm : decodeWord 0b0110101101011110 = .ok (.ldImm 0b1011 0b01011110) := by decide
theorem test_decode_addImm : decodeWord 0b0111101101011110 = .ok (.addImm 0b1011 0b01011110) := by decide
theorem test_decode_ldReg : decodeWord 0b1000101101100000 = .ok (.ldReg 0b1011 0b0110) := by decide
theorem test_decode_orReg : decodeWord 0b1000101101100001 = .ok (.orReg 0b1011 0b0110) := by decide
theorem test_decode_andReg : decodeWord 0b1000101101100010 = .ok (.andReg 0b1011 0b0110) := by decide
theorem test_decode_xorReg : decodeWord 0b1000101101100011 = .ok (.xorReg 0b1011 0b0110) := by decide
theorem test_decode_addReg : decodeWord 0b1000101101100100 = .ok (.addReg 0b1011 0b0110) := by decide
theorem test_decode_sub : decodeWord 0b1000101101100101 = .ok (.sub 0b1011 0b0110) := by decide
theorem test_decode_shr : decodeWord 0b1000101101100110 = .ok (.shr 0b1011 0b0110) := by decide
theorem test_decode_subn : decodeWord 0b1000101101100111 = .ok (.subn 0b1011 0b0110) := by decide
theorem test_decode_shl : decodeWord 0b1000101101101110 = .ok (.shl 0b1011 0b0110) := by decide
theorem test_decode_sneReg : decodeWord 0b1001101101100000 = .ok (.sneReg 0b1011 0b0110) := by decide
theorem test_decode_ldI : decodeWord 0b1010101100111101 = .ok (.ldI 0b101100111101) := by decide
theorem test_decode_jpV0 : decodeWord 0b1011101100111101 = .ok (.jpV0 0b101100111101) := by decide
theorem test_decode_rnd : decodeWord 0b1100101101011110 = .ok (.rnd 0b1011 0b01011110) := by decide
theorem test_decode_drw : decodeWord 0b1101101101101101 = .ok (.drw 0b1011 0b0110 0b1101) := by decide
theorem test_decode_skp : decodeWord 0b1110101110011110 = .ok (.skp 0b1011) := by decide
theorem test_decode_sknp : decodeWord 0b1110101110100001 = .ok (.sknp 0b1011) := by decide
theorem test_decode_ldVxDt : decodeWord 0b1111101100000111 = .ok (.ldVxDt 0b1011) := by decide
theorem test_decode_ldVxK : decodeWord 0b1111101100001010 = .ok (.ldVxK 0b1011) := by decide
theorem test_decode_ldDtVx : decodeWord 0b1111101100010101 = .ok (.ldDtVx 0b1011) := by decide
theorem test_decode_ldStVx : decodeWord 0b1111101100011000 = .ok (.ldStVx 0b1011) := by decide
theorem test_decode_addI : decodeWord 0b1111101100011110 = .ok (.addI 0b1011) := by decide
theorem test_decode_ldF : decodeWord 0b1111101100101001 = .ok (.ldF 0b1011) := by decide
theorem test_decode_ldB : decodeWord 0b1111101100110011 = .ok (.ldB 0b1011) := by decide
theorem test_decode_stRegs : decodeWord 0b1111101101010101 = .ok (.stRegs 0b1011) := by decide
theorem test_decode_ldRegs : decodeWord 0b1111101101100101 = .ok (.ldRegs 0b1011) := by decide

/-! Words that select no instruction (95_test_vectors.md 2.6), rejected by name. -/

theorem test_decode_unrecognised0 : decodeWord 0x0FEE = .error (.unrecognised0 0x0FEE) := by decide
theorem test_decode_unrecognised5 : decodeWord 0x5AB1 = .error (.unrecognised5 0x5AB1) := by decide
theorem test_decode_unrecognised8 : decodeWord 0x8ABF = .error (.unrecognised8 0x8ABF) := by decide
theorem test_decode_unrecognised9 : decodeWord 0x9AB1 = .error (.unrecognised9 0x9AB1) := by decide
theorem test_decode_unrecognisedE : decodeWord 0xE19F = .error (.unrecognisedE 0xE19F) := by decide
theorem test_decode_unrecognisedF : decodeWord 0xF075 = .error (.unrecognisedF 0xF075) := by decide
theorem test_decode_truncated : decodeBytes [0x60] = .error .truncated := by decide
theorem test_decode_highByteFirst : decodeBytes [0xA3, 0x45, 0x99] = .ok (.ldI 0x345, [0x99]) := by decide -- S9
theorem test_decodeTableWord : decodeTableWord 16 0xA345 = some (.ldI 0x345) := by decide

/-! ### Single steps -/

/-- What a STEP samples with these keys and this random byte; the draws are the simulator defaults of D14 and D15. -/
def inputs (keys : Word) (rnd : Byte) : StepInput := { keys := keys, rnd := rnd, absentKey := false, keyChoice := 0 }

/-- No key pressed, random byte 0. -/
def idle : StepInput := inputs 0 0

/-- The next state of an outcome. -/
def stateOf (o : Host.Outcome State Fault Refusal) : Option State :=
  match o with
  | .next t => some t
  | _ => none

/-- One STEP on the word `w`, placed at `PC`, from `s`; `check` is asked of the next state. -/
def after (s : State) (w : Word) (inp : StepInput) (check : State → Bool) : Bool :=
  match stateOf (step ((s.placeWord w).setSchedule [.step inp])) with
  | some t => check t
  | none => false

/-- The reset state with some registers set. -/
def regs (l : List (Nibble × Byte)) : State := l.foldl (fun s p => s.setReg p.1 p.2) State.reset

/-- Writes memory bytes from `a` up. -/
def mem (s : State) (a : Nat) (bs : List Byte) : State := s.setMem (Memory.writeAll s.cfg.font s.mem a bs)

/-- The state has FAULT = (code, info). -/
def faulted (t : State) (code : FaultCode) (info : Nat) : Bool := decide (t.fault.code = code ∧ t.fault.info.toNat = info)

/-- Where the display is lit, row by row from the top left, over the first `n` rows from `r`. -/
def lit (t : State) (r n : Nat) : List (Nat × Nat) :=
  (List.range n).flatMap fun k => ((List.range 64).filter fun c => pixel t.disp (r + k) c).map fun c => (r + k, c)

/-! Control transfer, registers, address register, memory. -/

theorem test_jp_target : after (regs []) 0x1ABC idle (fun t => t.pc == 0x0ABC) = true := by decide -- CT1
theorem test_call_pushes : after (regs []) 0x2210 idle (fun t => t.pc == 0x0210 && t.stack == [0x0202]) = true := by decide -- CT3
theorem test_call_full : after (State.reset.setStack (List.replicate 16 0x0300)) 0x2210 idle (fun t => faulted t .stackOverflow 0x200 && t.pc == 0x0200 && t.stack.length == 16) = true := by decide -- CT4
theorem test_ret_pops : after ((State.reset.setPc 0x0212).setStack [0x0206]) 0x00EE idle (fun t => t.pc == 0x0206 && t.stack == []) = true := by decide -- CT5
theorem test_ret_empty : after (regs []) 0x00EE idle (fun t => faulted t .stackUnderflow 0x200 && t.pc == 0x0200) = true := by decide -- CT6
theorem test_jpV0_noWrap : after (regs [(0, 0xFF)]) 0xBFFF idle (fun t => t.pc == 0x10FE) = true := by decide -- CT8
theorem test_seImm_taken : after (regs [(1, 0)]) 0x3100 idle (fun t => t.pc == 0x0204) = true := by decide -- CT9
theorem test_seImm_lastAddress : after (State.reset.setPc 0x0FFE) 0x3100 idle (fun t => t.pc == 0x1002 && t.fault.code == .noFault) = true := by decide -- CT18
theorem test_sneImm_notTaken : after (regs [(2, 7)]) 0x4207 idle (fun t => t.pc == 0x0202) = true := by decide -- CT11
theorem test_sneImm_taken : after (regs [(2, 7)]) 0x4208 idle (fun t => t.pc == 0x0204) = true := by decide -- CT12
theorem test_seReg_taken : after (regs [(3, 0x2A), (4, 0x2A)]) 0x5340 idle (fun t => t.pc == 0x0204) = true := by decide -- CT13
theorem test_seReg_notTaken : after (regs [(3, 0x2A), (4, 0x2B)]) 0x5340 idle (fun t => t.pc == 0x0202) = true := by decide -- CT14
theorem test_sneReg_taken : after (regs [(3, 1), (4, 2)]) 0x9340 idle (fun t => t.pc == 0x0204) = true := by decide -- CT15
theorem test_sneReg_self : after (regs [(3, 1)]) 0x9330 idle (fun t => t.pc == 0x0202) = true := by decide -- CT16
theorem test_ldImm : after (regs []) 0x6005 idle (fun t => t.reg 0 == 0x05 && t.pc == 0x0202) = true := by decide -- AL1
theorem test_addImm_wraps : after (regs [(0, 0xFF)]) 0x7001 idle (fun t => t.reg 0 == 0 && t.reg 0xF == 0) = true := by decide -- AL3
theorem test_addImm_vf : after (regs []) 0x7FFF idle (fun t => t.reg 0xF == 0xFF) = true := by decide -- AL4
theorem test_ldReg : after (regs [(2, 0x7E)]) 0x8120 idle (fun t => t.reg 1 == 0x7E) = true := by decide -- AL5
theorem test_orReg : after (regs [(1, 0x0F), (2, 0xF0), (0xF, 0x55)]) 0x8121 idle (fun t => t.reg 1 == 0xFF && t.reg 0xF == 0x55) = true := by decide -- AL6
theorem test_andReg : after (regs [(1, 0x3C), (2, 0x0F), (0xF, 0x55)]) 0x8122 idle (fun t => t.reg 1 == 0x0C && t.reg 0xF == 0x55) = true := by decide -- AL7
theorem test_xorReg : after (regs [(1, 0xFF), (2, 0x0F), (0xF, 0x55)]) 0x8123 idle (fun t => t.reg 1 == 0xF0 && t.reg 0xF == 0x55) = true := by decide -- AL8
theorem test_addReg_aliased : after (regs [(3, 0x90)]) 0x8334 idle (fun t => t.reg 3 == 0x20 && t.reg 0xF == 1) = true := by decide -- S1d, AL13
theorem test_addReg_intoVf : after (regs [(0xF, 0xF0), (1, 0x20)]) 0x8F14 idle (fun t => t.reg 0xF == 0x10) = true := by decide -- AL14
theorem test_sub_borrow : after (regs [(1, 5), (2, 7)]) 0x8125 idle (fun t => t.reg 1 == 0xFE && t.reg 0xF == 0) = true := by decide -- S2b
theorem test_sub_equal : after (regs [(1, 7), (2, 7)]) 0x8125 idle (fun t => t.reg 1 == 0 && t.reg 0xF == 1) = true := by decide -- S2c
theorem test_shr_takesVy : after (regs [(1, 0xAA), (2, 5)]) 0x8126 idle (fun t => t.reg 1 == 2 && t.reg 0xF == 1 && t.reg 2 == 5) = true := by decide -- AL20
theorem test_shr_intoVf : after (regs [(1, 3), (0xF, 0x77)]) 0x8F16 idle (fun t => t.reg 0xF == 1) = true := by decide -- AL34
theorem test_subn : after (regs [(1, 5), (2, 7)]) 0x8127 idle (fun t => t.reg 1 == 2 && t.reg 0xF == 1) = true := by decide -- S2d
theorem test_subn_borrow : after (regs [(1, 7), (2, 5)]) 0x8127 idle (fun t => t.reg 1 == 0xFE && t.reg 0xF == 0) = true := by decide -- S2e
theorem test_shl : after (regs [(2, 0x81)]) 0x812E idle (fun t => t.reg 1 == 2 && t.reg 0xF == 1 && t.reg 2 == 0x81) = true := by decide -- AL25
theorem test_shl_vfVf : after (regs [(0xF, 0x81)]) 0x8FFE idle (fun t => t.reg 0xF == 2) = true := by decide -- AL28
theorem test_ldI : after (regs []) 0xA300 idle (fun t => t.i == 0x0300 && t.pc == 0x0202) = true := by decide -- IM1
theorem test_rnd_masks : after (regs []) 0xC30F (inputs 0 0xA7) (fun t => t.reg 3 == 7) = true := by decide -- AL29
theorem test_addI_noFlag : after ((regs [(2, 1)]).setI 0x0FFF) 0xF21E idle (fun t => t.i == 0x1000 && t.reg 0xF == 0 && t.fault.code == .noFault) = true := by decide -- IM3
theorem test_addI_wraps : after ((regs [(2, 1)]).setI 0xFFFF) 0xF21E idle (fun t => t.i == 0x0000) = true := by decide -- IM4
theorem test_ldF_notMasked : after (regs [(0, 0xFF)]) 0xF029 idle (fun t => t.i == 0x04FB) = true := by decide -- IM6
theorem test_ldB : after (mem ((regs [(0, 9)]).setI 0x0300) 0x300 [0xEE, 0xEE, 0xEE]) 0xF033 idle (fun t => t.byteAt 0x300 == 0 && t.byteAt 0x301 == 0 && t.byteAt 0x302 == 9 && t.i == 0x0300) = true := by decide -- IM10
theorem test_ldB_outOfRange : after ((regs [(0, 0x64)]).setI 0x0FFE) 0xF033 idle (fun t => faulted t .addressOutOfRange 0x1000 && t.pc == 0x0200 && t.byteAt 0xFFE == 0) = true := by decide -- IM12
theorem test_stRegs : after ((regs [(0, 0x11), (1, 0x22), (2, 0x33), (3, 0x44)]).setI 0x0400) 0xF255 idle (fun t => t.byteAt 0x400 == 0x11 && t.byteAt 0x402 == 0x33 && t.byteAt 0x403 == 0 && t.i == 0x0403) = true := by decide -- IM13
theorem test_stRegs_lastByte : after ((regs [(0, 0x77)]).setI 0x0FFF) 0xF055 idle (fun t => t.byteAt 0xFFF == 0x77 && t.i == 0x1000 && t.fault.code == .noFault) = true := by decide -- IM14
theorem test_ldRegs : after (mem ((regs [(3, 0x44)]).setI 0x0400) 0x400 [0x11, 0x22, 0x33, 0x55]) 0xF265 idle (fun t => t.reg 0 == 0x11 && t.reg 2 == 0x33 && t.reg 3 == 0x44 && t.i == 0x0403) = true := by decide -- R195, as S4
theorem test_ldRegs_allOrNothing : after (mem ((regs [(0, 0x07)]).setI 0x0FFF) 0xFFF [0x99]) 0xF165 idle (fun t => faulted t .addressOutOfRange 0x1000 && t.reg 0 == 7 && t.i == 0x0FFF) = true := by decide -- R196, as IM15

/-! Display, keypad, timers. -/

theorem test_cls : after (((State.reset.setDisp (((blankDisplay.set 0 (1 <<< 63)).set 31 1))).setReg 0xF 1)) 0x00E0 idle (fun t => t.disp == blankDisplay && t.reg 0xF == 1 && t.pc == 0x0202) = true := by decide -- S8
theorem test_drw_clips : after ((regs [(1, 0x3E), (2, 0x1E)]).setI 0x0032) 0xD125 idle (fun t => lit t 0 2 == [] && lit t 30 2 == [(30, 62), (30, 63), (31, 62)] && t.reg 0xF == 0) = true := by decide -- DP3
theorem test_drw_collides : after (mem ((State.reset.setI 0x0300).setDisp (blankDisplay.set 0 (BitVec.ofNat 64 (2 ^ 63 + 2 ^ 54)))) 0x300 [0xFF]) 0xD121 idle (fun t => lit t 0 1 == [(0, 1), (0, 2), (0, 3), (0, 4), (0, 5), (0, 6), (0, 7), (0, 9)] && t.reg 0xF == 1) = true := by decide -- DP11
theorem test_skp_pressed : after (regs [(2, 7)]) 0xE29E (inputs 0x0080 0) (fun t => t.pc == 0x0204) = true := by decide -- KT1
theorem test_skp_aboveFifteen : after (regs [(2, 0x17)]) 0xE29E (inputs 0xFFFF 0) (fun t => t.pc == 0x0202) = true := by decide -- KT5, with the simulator default draw
theorem test_sknp_released : after (regs [(2, 7)]) 0xE2A1 idle (fun t => t.pc == 0x0204) = true := by decide -- KT3
theorem test_sknp_pressed : after (regs [(2, 7)]) 0xE2A1 (inputs 0x0080 0) (fun t => t.pc == 0x0202) = true := by decide -- KT4
theorem test_ldVxDt : after (State.reset.setDt 0x2A) 0xF307 idle (fun t => t.reg 3 == 0x2A && t.dt == 0x2A) = true := by decide -- KT6
theorem test_ldVxK_waits : after (State.reset.setReg 2 5) 0xF20A idle (fun t => t.pc == 0x0200 && t.reg 2 == 5) = true := by decide -- KT7
theorem test_ldVxK_lowest : after (regs []) 0xF20A (inputs 0x8002 0) (fun t => t.reg 2 == 1 && t.pc == 0x0202) = true := by decide -- KT9, with the simulator default draw
theorem test_ldDtVx : after (regs [(0, 3)]) 0xF015 idle (fun t => t.dt == 3 && t.st == 0) = true := by decide -- KT11
theorem test_ldStVx : after (regs [(4, 0x1E)]) 0xF418 idle (fun t => t.st == 0x1E && t.dt == 0) = true := by decide -- KT12
theorem test_unrecognised : after (regs [(1, 1), (0xA, 3), (0xB, 3)]) 0x5AB1 idle (fun t => t.pc == 0x0202 && t.unk) = true := by decide -- 2.6

/-! Fetch, TICK and RESET. -/

/-- The model step from `s` with one event to come; `check` is asked of the next state. -/
def afterEvent (s : State) (e : Event) (check : State → Bool) : Bool :=
  match stateOf (step (s.setSchedule [e])) with
  | some t => check t
  | none => false

theorem test_fetch_pastTheEnd :
    afterEvent (State.reset.setPc 0x0FFF) (.step idle) (fun t => faulted t .addressOutOfRange 0xFFF && t.pc == 0x0FFF)
      = true := by decide -- CT19
theorem test_step_halted :
    afterEvent (State.reset.setFault ⟨.stackUnderflow, 0x200⟩) (.step idle)
      (fun t => faulted t .stackUnderflow 0x200 && t.pc == 0x0200) = true := by decide -- FL1b
theorem test_tick_stopsAtZero :
    afterEvent ((State.reset.setDt 0x00).setSt 0xFF) .tick (fun t => t.dt == 0x00 && t.st == 0xFE) = true := by decide -- TK3
theorem test_tick_whileFaulted :
    afterEvent ((State.reset.setDt 0x02).setFault ⟨.stackUnderflow, 0x200⟩) .tick
      (fun t => t.dt == 0x01 && faulted t .stackUnderflow 0x200) = true := by decide -- TK4
theorem test_reset_loads :
    afterEvent (regs [(1, 5)]) (.reset [0x60, 0x05])
      (fun t => t.byteAt 0x000 == 0xF0 && t.byteAt 0x200 == 0x60 && t.byteAt 0x201 == 0x05 && t.byteAt 0x202 == 0
        && t.reg 1 == 0 && t.pc == 0x0200) = true := by decide -- R290
theorem test_reset_tooLarge :
    faulted (State.reset.resetWith (List.replicate 3585 0xAB)) .imageTooLarge 0xE01 = true := by
  rw [State.resetWith, List.length_replicate]; decide -- S11
theorem test_withFetchWord_afterReset :
    (stateOf (step (State.reset.withFetchWord 16 0x6A42))).map (fun t => (t.reg 0xA, t.pc)) = some (0x42, 0x0202) := by
  decide
theorem test_withFetchWord_haltedPastTheEnd :
    (stateOf (step ((((State.reset.setPc 0x1000).setFault ⟨.addressOutOfRange, 0x1000⟩).setSchedule [.tick]).withFetchWord 16
      0x6A42))).map (fun t => (t.reg 0xA, t.pc)) = some (0x42, 0x0202) := by
  decide

/-! ### Witnesses: for every obligation with hypotheses, states and operands that meet all of them, clause by clause, at the
boundaries of their ranges -/

/-- A stack of fifteen entries: room for exactly one more. -/
def fifteen : State := State.reset.setStack (List.replicate 15 0x0300)

/-- A stack of sixteen entries: full. -/
def sixteen : State := State.reset.setStack (List.replicate 16 0x0300)

theorem witness_RejectedWords : UnrecognisedWord 0x00E1 ∧ UnrecognisedWord 0x5AB1 ∧ UnrecognisedWord 0x8AB8 ∧
    UnrecognisedWord 0x9AB1 ∧ UnrecognisedWord 0xE19F ∧ UnrecognisedWord 0xF000 :=
  ⟨Or.inl (by decide), Or.inr (Or.inl (by decide)), Or.inr (Or.inr (Or.inl (by decide))),
   Or.inr (Or.inr (Or.inr (Or.inl (by decide)))), Or.inr (Or.inr (Or.inr (Or.inr (Or.inl (by decide))))),
   Or.inr (Or.inr (Or.inr (Or.inr (Or.inr (by decide)))))⟩

theorem witness_EncodeOfDecode : decodeWord 0x8AB7 = .ok (.subn 0xA 0xB) := by decide

theorem witness_DecoderSelects : ∃ r ∈ opcodeMap, (0x8AB7#16 &&& r.mask) = r.pattern ∧ r.mnemonic = "8xy7" :=
  ⟨⟨"8xy7", 0x8007, 0xF00F⟩, by decide, by decide, rfl⟩

theorem witness_NoTwoRowsOverlap : ∃ r ∈ opcodeMap, ∃ q ∈ opcodeMap, (0xF165#16 &&& r.mask) = r.pattern ∧
    (0xF165#16 &&& q.mask) = q.pattern :=
  ⟨⟨"Fx65", 0xF065, 0xF0FF⟩, by decide, ⟨"Fx65", 0xF065, 0xF0FF⟩, by decide, by decide, by decide⟩

theorem witness_CallPushesReturnAddress : fifteen.stack.length < fifteen.cfg.stackCapacity ∧
    fifteen.stack.length + 1 = fifteen.cfg.stackCapacity := by decide

theorem witness_ReturnPopsLastEntry : ∃ (s : State) (rest : List Word) (w : Word), s.stack = rest ++ [w] :=
  ⟨State.reset.setStack [0x0206], [], 0x0206, rfl⟩

theorem witness_StackFaults : sixteen.cfg.stackCapacity ≤ sixteen.stack.length ∧ State.reset.stack = [] := by decide

theorem witness_SubroutineRoundTrip : ∃ (s t u : State), s.stack.length < s.cfg.stackCapacity ∧
    exec (.call 0x210) s = .next t ∧ u.stack = t.stack ∧ u.pc ≠ t.pc :=
  ⟨fifteen, _, (fifteen.setStack (fifteen.stack ++ [0x0202])).setPc 0x0300, by decide, rfl, by decide, by decide⟩

/-- A machine at rest: the word at 0x200 jumps to 0x200. -/
def resting : State := mem State.reset 0x200 [0x12, 0x00]

theorem witness_RestIsStable : (resting.setSchedule [.step idle]).atRest = true ∧
    NextIsStep (resting.setSchedule [.step idle]) idle (resting.setSchedule []) := ⟨by decide, rfl⟩

theorem witness_FlagWriters : (0x1 : Nibble) ≠ vf ∧ (0xE : Nibble) ≠ vf := by decide

theorem witness_FlagWritersWithVf : ∃ x y : Nibble, x = vf ∧ y ≠ vf ∧ ∃ x' y' : Nibble, x' ≠ vf ∧ y' = vf :=
  ⟨0xF, 0x1, rfl, by decide, 0x1, 0xF, by decide, rfl⟩

theorem witness_VfChanges_flag : ∃ t, exec (.addReg 1 2) (regs [(1, 0xC8), (2, 0x64)]) = .next t ∧
    t.reg vf ≠ (regs [(1, 0xC8), (2, 0x64)]).reg vf ∧ (0x1 : Nibble) ≠ vf := ⟨_, rfl, by decide, by decide⟩

theorem witness_VfChanges_destination : ∃ t u, exec (.addImm vf 0xFF) State.reset = .next t ∧ t.reg vf ≠ State.reset.reg vf ∧
    exec (.ldReg vf 1) (regs [(1, 7)]) = .next u ∧ u.reg vf ≠ (regs [(1, 7)]).reg vf :=
  ⟨_, _, rfl, by decide, rfl, by decide⟩

theorem witness_VfChanges_draw : (State.reset.setI 0x0FF1).i.toNat + (0xF : Nibble).toNat ≤ 4096 ∧
    ∃ t, exec (.drw 1 2 0xF) (State.reset.setI 0x0FF1) = .next t := ⟨by decide, _, rfl⟩

theorem witness_ByteInterface : (4095 : Nat) ≤ 4095 ∧ 4096 ≤ (4096 : Nat) := by decide

theorem witness_DecimalDigitsStored : (State.reset.setI 0x0FFD).dataAddr + 2 = 4095 := by decide

theorem witness_RegisterBlock : (State.reset.setI 0x0FF0).dataAddr + (0xF : Nibble).toNat = 4095 ∧
    (State.reset.setI 0x0FFF).dataAddr + (0x0 : Nibble).toNat = 4095 := by decide

/-- Each of the four instructions with its highest address at exactly 4096, and one with `I` itself above 4095. -/
theorem witness_MemoryFaults : (State.reset.setI 0x0FFE).dataAddr + (3 - 1) = 4096 ∧
    (State.reset.setI 0x0FF1).dataAddr + (((0xF : Nibble).toNat + 1) - 1) = 4096 ∧
    (State.reset.setI 0x0FFF).dataAddr + ((0x2 : Nibble).toNat - 1) = 4096 ∧ 4096 ≤ (State.reset.setI 0x1000).dataAddr := by
  decide

theorem witness_StoreThenLoad : ∃ t u : State, exec (.stRegs 0xF) (State.reset.setI 0x0FF0) = .next t ∧
    (∀ a, u.memRead a = t.memRead a) ∧ u.i = (State.reset.setI 0x0FF0).i ∧ u.reg 3 ≠ t.reg 3 :=
  ⟨_, ((State.reset.setI 0x0FF0).setReg 3 9), rfl, fun _ => rfl, rfl, by decide⟩

/-- The block ends at the last byte of memory; a fetch lies in it whole, and one reaches it with its second byte only. -/
theorem witness_FetchSeesStores : (State.reset.setI 0x0FF0).dataAddr + (0xF : Nibble).toNat = 4095 ∧
    (State.reset.setI 0x0FFD).dataAddr + 2 = 4095 ∧
    (0x0FFE : Word).toNat ≤ 4094 ∧ (0x0FFE : Word).toNat = (State.reset.setI 0x0FFD).dataAddr + 1 ∧
    (0x0FFC : Word).toNat + 1 = (State.reset.setI 0x0FFD).dataAddr + 0 := by decide

/-- A draw whose last byte is at 4095, and one of no bytes with `I` past memory. -/
theorem witness_Draw : (State.reset.setI 0x0FF1).dataAddr + (0xF : Nibble).toNat = 4096 ∧ ((0x0 : Nibble) = 0) ∧
    4096 < (State.reset.setI 0xFFFF).dataAddr := by decide

theorem witness_DrawTwiceRestores : (0x1 : Nibble) ≠ vf ∧ (0x2 : Nibble) ≠ vf ∧
    (State.reset.setI 0x0FF1).dataAddr + (0xF : Nibble).toNat ≤ 4096 := by decide

theorem witness_KeySkips : ((regs [(2, 15)]).reg 2).toNat = 15 ∧ ((regs [(2, 16)]).reg 2).toNat = 16 := by decide

theorem witness_WaitForKey : (State.reset.setInput idle).input.keys = 0 ∧ (State.reset.setInput (inputs 0x8000 0)).input.keys ≠ 0 := by
  decide

theorem witness_EveryPressedKey : (State.reset.setInput (inputs 0x8001 0)).input.keys.getLsbD 15 = true ∧
    (State.reset.setInput (inputs 0x8001 0)).input.keys.getLsbD 0 = true := by decide

theorem witness_TickCountsDown : ∃ s : State, s.nextEvent = (.tick, s.setSchedule [.tick]) ∧ s.fault.code ≠ .noFault :=
  ⟨(State.reset.setSchedule [.tick, .tick]).setFault ⟨.stackUnderflow, 0x200⟩, rfl, by decide⟩

/-- A STEP that runs `F015` and changes the delay timer, and one that runs `F018` and changes the sound timer. -/
theorem witness_TimersChange : ∃ s t u v : State,
    NextIsStep s idle (s.setSchedule []) ∧ step s = .next t ∧ t.dt ≠ s.dt ∧
    NextIsStep u idle (u.setSchedule []) ∧ step u = .next v ∧ v.st ≠ u.st :=
  ⟨((regs [(0, 3)]).placeWord 0xF015).setSchedule [.step idle], _,
   ((regs [(0, 3)]).placeWord 0xF018).setSchedule [.step idle], _,
   rfl, rfl, by decide, rfl, rfl, by decide⟩

theorem witness_FetchIsBigEndian : (State.reset.setPc 0x0FFE).pc.toNat = 4094 := by decide

theorem witness_StepRunsTheDecodedInstruction :
    NextIsStep (resting.setSchedule [.step idle]) idle (resting.setSchedule []) ∧
    (resting.setSchedule [.step idle]).fault.code = .noFault ∧ (resting.setSchedule [.step idle]).pc.toNat ≤ 4094 ∧
    (resting.setSchedule [.step idle]).memRead 0x200 = .ok 0x12 ∧
    (resting.setSchedule [.step idle]).memRead 0x201 = .ok 0x00 ∧
    decodeWord (wordOfBytes 0x12 0x00) = .ok (.jp 0x200) :=
  ⟨rfl, by decide, by decide, by decide, by decide, by decide⟩

theorem witness_UnrecognisedWordIsANoOp : NextIsStep (State.reset.setSchedule [.step idle]) idle State.reset ∧
    State.reset.fault.code = .noFault ∧ (State.reset.setSchedule [.step idle]).fetch = .ok 0x0000 ∧ UnrecognisedWord 0x0000 :=
  ⟨rfl, by decide, by decide, Or.inl (by decide)⟩

theorem witness_FetchPastTheEndFaults : ∃ s : State, NextIsStep s idle (s.setSchedule []) ∧ s.fault.code = .noFault ∧
    s.pc.toNat = 4095 :=
  ⟨(State.reset.setPc 0x0FFF).setSchedule [.step idle], rfl, by decide, by decide⟩

/-- A halted machine whose next event is a STEP, and one whose next event is a TICK. -/
theorem witness_HaltedUntilReset : ∃ s t : State,
    s.fault.code ≠ .noFault ∧ (∀ image, s.nextEvent.1 ≠ .reset image) ∧ s.nextEvent.1 ≠ .tick ∧
    t.fault.code ≠ .noFault ∧ (∀ image, t.nextEvent.1 ≠ .reset image) ∧ t.nextEvent.1 = .tick :=
  ⟨(State.reset.setFault ⟨.stackUnderflow, 0x200⟩).setSchedule [.step idle],
   (State.reset.setFault ⟨.stackUnderflow, 0x200⟩).setSchedule [.tick],
   by decide, fun _ => Event.noConfusion, Event.noConfusion, by decide, fun _ => Event.noConfusion, rfl⟩

theorem witness_FaultEntryIsPrecise : ∃ t, exec .ret State.reset = .next t ∧ t.fault ≠ State.reset.fault :=
  ⟨_, rfl, by decide⟩

theorem witness_ResetValues : ∃ (s : State) (image : List Byte), s.nextEvent = (.reset image, State.reset) ∧
    image.length = 3584 :=
  ⟨State.reset.setSchedule [.reset (List.replicate 3584 0xAB)], _, rfl, List.length_replicate⟩

theorem witness_TooLargeImageHalts : ∃ (s : State) (image : List Byte), s.nextEvent = (.reset image, State.reset) ∧
    image.length = 3585 :=
  ⟨State.reset.setSchedule [.reset (List.replicate 3585 0xAB)], _, rfl, List.length_replicate⟩

theorem witness_ResetEventGivesTheResetState : ∃ s u : State, s.nextEvent = (.reset [], u) ∧ s.cfg = defaultConfig ∧
    s.pc ≠ State.reset.pc ∧ s.mem ≠ State.reset.mem :=
  ⟨((mem State.reset 0x300 [0x01]).setPc 0x0300).setSchedule [.reset []], _, rfl, rfl, by decide, by decide⟩

/-- A schedule with all three events, none of which is left after them, and one that has run out. -/
theorem witness_EveryOrderOfEventsIsARun :
    (State.reset.setSchedule [.tick, .step idle, .tick, .reset []]).schedule = [.tick, .step idle, .tick] ++ [.reset []] ∧
    State.reset.schedule = [] := by decide

/-- A state far from reset: a byte stored at the last address, a stack entry, the largest `PC`, a fault. -/
def far : State :=
  (((State.reset.setMem [(0xFFF, 0x01)]).setStack [0x0202]).setPc 0x10FE).setFault ⟨.addressOutOfRange, 0x10FE⟩

theorem witness_EveryStepKeepsTheInvariant : ∃ t : State, (far.setSchedule [.tick]).Inv ∧
    step (far.setSchedule [.tick]) = .next t :=
  ⟨_, ⟨by decide, by decide, fun r hr => by cases List.mem_singleton.1 hr; decide, by decide, ⟨by decide, by decide⟩⟩, rfl⟩

/-- A store that reaches the last byte, and one that faults. -/
theorem witness_OnlyTheTablesWrites : ∃ t u : State, exec (.stRegs 0xF) (State.reset.setI 0x0FF0) = .next t ∧
    t.fault.code = .noFault ∧ exec (.stRegs 0xF) (State.reset.setI 0x0FF1) = .next u ∧ u.fault.code ≠ .noFault :=
  ⟨_, _, rfl, by decide, rfl, by decide⟩

/-- Two states that agree on what `8124` reads and differ in a register, the address register, the stack, every sampled input,
a parameter and the schedule. -/
theorem witness_OnlyTheTablesReads : ∃ s t s' t' : State, (∀ p, (Instr.addReg 1 2).reads s p → p.same s t) ∧
    exec (.addReg 1 2) s = .next s' ∧ exec (.addReg 1 2) t = .next t' ∧ s.reg 5 ≠ t.reg 5 ∧ s.i ≠ t.i ∧ s.stack ≠ t.stack ∧
    s.input.keys ≠ t.input.keys ∧ s.input.rnd ≠ t.input.rnd ∧ s.cfg.stackCapacity ≠ t.cfg.stackCapacity ∧
    s.schedule ≠ t.schedule := by
  refine ⟨State.reset, { ((State.reset.setReg 5 9).setI 7).setStack [0x0202] with
    input := inputs 0xFFFF 0xFF, cfg := { defaultConfig with stackCapacity := 1 }, schedule := [.tick] }, _, _, ?_, rfl, rfl,
    by decide, by decide, by decide, by decide, by decide, by decide, by decide⟩
  intro p h
  cases p
  case reg => rcases h with rfl | rfl <;> exact State.reg_setReg_of_ne State.reset (by decide) 9
  all_goals first | rfl | exact absurd h id

/-- A key number of exactly 16 makes `E29E` read the draw; one of 15 does not. -/
theorem witness_readsAbsentKey : (Instr.skp 2).reads (regs [(2, 16)]) .absentKey ∧
    ¬ (Instr.skp 2).reads (regs [(2, 15)]) .absentKey := by
  simp only [Instr.reads]
  decide

theorem witness_PlacedWordRunsNext : decodeTableWord 16 0x00EE = some .ret ∧ decodeTableWord 16 0xDABC = some (.drw 0xA 0xB 0xC) := by
  decide

end Sys2Proof.Tests
end

section
/-! SUPPORT. What each update of State changes, as a claim about pieces of state, and how such claims compose. -/

namespace Sys2Proof.Machine

/-! ### Pieces -/

variable {ch ch' : Piece → Prop} {s t u : State}

theorem Piece.same_symm {p : Piece} (h : p.same s t) : p.same t s := by
  cases p <;> simp_all [Piece.same]

theorem OnlyChanged.refl (ch : Piece → Prop) (s : State) : OnlyChanged ch s s := fun p _ => p.same_refl s

/-- One more update, of pieces that may change. -/
theorem OnlyChanged.step (h : OnlyChanged ch s t) (h' : OnlyChanged ch' t u) (le : ∀ p, ch' p → ch p) :
    OnlyChanged ch s u := h.trans (h'.mono le)

/-- One more update, of one piece that may change. -/
theorem OnlyChanged.stepOne {q : Piece} (h : OnlyChanged ch s t) (h' : OnlyChanged (· = q) t u) (hq : ch q) :
    OnlyChanged ch s u := h.step h' (by rintro _ rfl; exact hq)

/-! ### The pieces each update changes -/

theorem State.onlyChanged_setReg (s : State) (k : Nibble) (b : Byte) : OnlyChanged (· = .reg k) s (s.setReg k b) := by
  intro p hp
  cases p <;> simp_all [Piece.same, State.reg_setReg]

theorem State.onlyChanged_setI (s : State) (w : Word) : OnlyChanged (· = .index) s (s.setI w) := by
  intro p hp
  cases p <;> simp_all [Piece.same]

theorem State.onlyChanged_setPc (s : State) (w : Word) : OnlyChanged (· = .pc) s (s.setPc w) := by
  intro p hp
  cases p <;> simp_all [Piece.same]

theorem State.onlyChanged_setDt (s : State) (b : Byte) : OnlyChanged (· = .delay) s (s.setDt b) := by
  intro p hp
  cases p <;> simp_all [Piece.same]

theorem State.onlyChanged_setSt (s : State) (b : Byte) : OnlyChanged (· = .sound) s (s.setSt b) := by
  intro p hp
  cases p <;> simp_all [Piece.same]

theorem State.onlyChanged_setStack (s : State) (l : List Word) : OnlyChanged (· = .stack) s (s.setStack l) := by
  intro p hp
  cases p <;> simp_all [Piece.same]

theorem State.onlyChanged_setSchedule (s : State) (l : List Event) : OnlyChanged (· = .environment) s (s.setSchedule l) := by
  intro p hp
  cases p <;> simp_all [Piece.same]

theorem State.onlyChanged_setDraws (s : State) (n : Nat) : OnlyChanged (· = .environment) s (s.setDraws n) := by
  intro p hp
  cases p <;> simp_all [Piece.same]

theorem State.onlyChanged_advance (s : State) : OnlyChanged (· = .pc) s s.advance := s.onlyChanged_setPc _

theorem State.onlyChanged_skipIf (s : State) (c : Bool) : OnlyChanged (· = .pc) s (s.skipIf c) := by
  cases c
  · exact OnlyChanged.refl _ s
  · exact s.onlyChanged_setPc _

theorem State.onlyChanged_setDisp {P : Nat → Nat → Prop} {d : Vector (BitVec 64) 32}
    (h : ∀ r c, ¬ P r c → pixel d r c = pixel s.disp r c) :
    OnlyChanged (fun p => ∃ r c, P r c ∧ p = .pixel r c) s (s.setDisp d) := by
  intro p hp
  cases p
  case pixel r c => exact h r c fun hP => hp ⟨r, c, hP, rfl⟩
  all_goals simp [Piece.same]

/-- Inside a stored block a read gives the block's byte, where the address lies in memory at all. -/
theorem State.memRead_store_of_mem (s : State) {a b : Nat} {bs : List Byte} (h : a ≤ b ∧ b < a + bs.length) :
    (s.setMem (Memory.writeAll s.cfg.font s.mem a bs)).memRead b
      = if b < 4096 then .ok (bs.getD (b - a) 0) else .error (.addressOutOfRange b) := by
  rw [State.memRead, State.byteAt_setMem_writeAll, if_pos h]

theorem State.memRead_store_of_not_mem (s : State) {a b : Nat} {bs : List Byte} (h : ¬ (a ≤ b ∧ b < a + bs.length)) :
    (s.setMem (Memory.writeAll s.cfg.font s.mem a bs)).memRead b = s.memRead b := by
  rw [State.memRead, State.byteAt_setMem_writeAll, if_neg h, State.memRead]

theorem State.onlyChanged_store (s : State) (a : Nat) (bs : List Byte) :
    OnlyChanged (fun p => ∃ b, (a ≤ b ∧ b < a + bs.length) ∧ p = .memByte b) s
      (s.setMem (Memory.writeAll s.cfg.font s.mem a bs)) := by
  intro p hp
  cases p
  case memByte b => exact s.memRead_store_of_not_mem fun hb => hp ⟨b, hb, rfl⟩
  all_goals simp [Piece.same]

theorem State.onlyChanged_loadRegsFrom (bs : List Byte) (s : State) (k : Nat) (h : k + bs.length ≤ 16) :
    OnlyChanged (fun p => ∃ j : Nibble, (k ≤ j.toNat ∧ j.toNat < k + bs.length) ∧ p = .reg j) s (s.loadRegsFrom k bs) := by
  intro p hp
  cases p
  case reg j =>
    show (s.loadRegsFrom k bs).reg j = s.reg j
    rw [State.reg_loadRegsFrom bs s k j h, if_neg fun hj => hp ⟨j, hj, rfl⟩]
  all_goals
    obtain ⟨w, hw⟩ := s.loadRegsFrom_frame bs k
    rw [hw]
    simp [Piece.same, State.memRead, State.byteAt]

end Sys2Proof.Machine
end

section
/-! The invariant: every update an instruction is made of keeps it, so every instruction and every event does. -/

namespace Sys2Proof.Machine
variable {s t : State}

/-! ### What each instruction that can fault answers -/

theorem exec_ret_cases (h : exec .ret s = .next t) :
    (s.stack = [] ∧ t = s.takeFault (.stackUnderflow s.pc)) ∨
    ∃ rest w, s.stack = rest ++ [w] ∧ t = (s.setStack rest).setPc w := by
  rcases List.eq_nil_or_concat' s.stack with hs | ⟨rest, w, hs⟩
  · rw [exec_ret_fault s hs] at h
    cases h
    exact Or.inl ⟨hs, rfl⟩
  · rw [exec_ret_ok s hs] at h
    cases h
    exact Or.inr ⟨rest, w, hs, rfl⟩

theorem exec_call_cases {nnn : Addr} (h : exec (.call nnn) s = .next t) :
    (s.cfg.stackCapacity ≤ s.stack.length ∧ t = s.takeFault (.stackOverflow s.pc)) ∨
    (s.stack.length < s.cfg.stackCapacity ∧ t = (s.advance.setStack (s.stack ++ [s.pc + 2])).setPc (zextAddr nnn)) := by
  rcases Nat.lt_or_ge s.stack.length s.cfg.stackCapacity with hs | hs
  · rw [exec_call_ok nnn s hs] at h
    cases h
    exact Or.inr ⟨hs, rfl⟩
  · rw [exec_call_fault nnn s hs] at h
    cases h
    exact Or.inl ⟨hs, rfl⟩

theorem exec_ldB_cases {x : Nibble} (h : exec (.ldB x) s = .next t) :
    (4096 ≤ s.dataAddr + 2 ∧ t = s.takeFault (.addressOutOfRange (max s.dataAddr 4096))) ∨
    (s.dataAddr + 2 ≤ 4095 ∧
      t = s.advance.setMem (Memory.writeAll s.cfg.font s.mem s.dataAddr (bcdDigits (s.reg x)))) := by
  rcases Nat.lt_or_ge 4095 (s.dataAddr + 2) with hs | hs
  · rw [exec_ldB_fault x s hs] at h
    cases h
    exact Or.inl ⟨hs, rfl⟩
  · rw [exec_ldB_ok x s hs] at h
    cases h
    exact Or.inr ⟨hs, rfl⟩

theorem exec_stRegs_cases {x : Nibble} (h : exec (.stRegs x) s = .next t) :
    (4096 ≤ s.dataAddr + x.toNat ∧ t = s.takeFault (.addressOutOfRange (max s.dataAddr 4096))) ∨
    (s.dataAddr + x.toNat ≤ 4095 ∧
      t = (s.advance.setMem (Memory.writeAll s.cfg.font s.mem s.dataAddr (s.blockOfRegs x))).setI (s.pastBlock x)) := by
  rcases Nat.lt_or_ge 4095 (s.dataAddr + x.toNat) with hs | hs
  · rw [exec_stRegs_fault x s hs] at h
    cases h
    exact Or.inl ⟨hs, rfl⟩
  · rw [exec_stRegs_ok x s hs] at h
    cases h
    exact Or.inr ⟨hs, rfl⟩

/-- The `n` bytes of memory from `I` up. -/
def State.bytesAtI (s : State) (n : Nat) : List Byte := (List.range n).map fun k => s.byteAt (s.dataAddr + k)

@[simp] theorem State.length_bytesAtI (s : State) (n : Nat) : (s.bytesAtI n).length = n := by
  simp [State.bytesAtI]

theorem exec_ldRegs_cases {x : Nibble} (h : exec (.ldRegs x) s = .next t) :
    (4096 ≤ s.dataAddr + x.toNat ∧ t = s.takeFault (.addressOutOfRange (max s.dataAddr 4096))) ∨
    (s.dataAddr + x.toNat ≤ 4095 ∧
      t = (s.advance.loadRegsFrom 0 (s.bytesAtI (x.toNat + 1))).setI (s.pastBlock x)) := by
  rcases Nat.lt_or_ge 4095 (s.dataAddr + x.toNat) with hs | hs
  · rw [exec_ldRegs_fault x s hs] at h
    cases h
    exact Or.inl ⟨hs, rfl⟩
  · rw [exec_ldRegs_ok x s hs] at h
    cases h
    exact Or.inr ⟨hs, rfl⟩

/-- The sprite of `n` bytes lies in memory, or is empty (decision D12). -/
def State.spriteInMemory (s : State) (n : Nibble) : Prop := n = 0 ∨ s.dataAddr + n.toNat ≤ 4096

/-- What the draw of `n` bytes at column `V[x]` and row `V[y]` makes of the display, and whether it collides. -/
def State.drawn (s : State) (x y n : Nibble) : Vector (BitVec 64) 32 × Bool :=
  blit s.disp (s.reg y).toNat (s.reg x).toNat (s.sprite n)

theorem exec_drw_of_spriteInMemory {x y n : Nibble} (hs : s.spriteInMemory n) :
    exec (.drw x y n) s
      = .next ((s.advance.setDisp (s.drawn x y n).1).setReg vf (collisionFlag (s.drawn x y n).2)) :=
  exec_drw_ok x y n s hs

theorem exec_drw_of_not_spriteInMemory {x y n : Nibble} (hs : ¬ s.spriteInMemory n) :
    exec (.drw x y n) s = .next (s.takeFault (.addressOutOfRange (max s.dataAddr 4096))) := by
  obtain ⟨hn, hle⟩ := not_or.1 hs
  have hn : n.toNat ≠ 0 := fun e => hn (BitVec.eq_of_toNat_eq e)
  exact exec_drw_fault x y n s (Nat.pos_of_ne_zero hn) (Nat.lt_of_not_le hle)

theorem exec_drw_cases {x y n : Nibble} (h : exec (.drw x y n) s = .next t) :
    (¬ s.spriteInMemory n ∧ t = s.takeFault (.addressOutOfRange (max s.dataAddr 4096))) ∨
    (s.spriteInMemory n ∧
      t = (s.advance.setDisp (s.drawn x y n).1).setReg vf (collisionFlag (s.drawn x y n).2)) := by
  by_cases hs : s.spriteInMemory n
  · rw [exec_drw_of_spriteInMemory hs] at h
    cases h
    exact Or.inr ⟨hs, rfl⟩
  · rw [exec_drw_of_not_spriteInMemory hs] at h
    cases h
    exact Or.inl ⟨hs, rfl⟩

/-! ### The invariant, update by update -/

namespace State.Inv

theorem setReg (h : s.Inv) (k : Nibble) (b : Byte) : (s.setReg k b).Inv := ⟨h.mem, h.depth, h.entries, h.pc, h.fault⟩
theorem setI (h : s.Inv) (w : Word) : (s.setI w).Inv := ⟨h.mem, h.depth, h.entries, h.pc, h.fault⟩
theorem setDt (h : s.Inv) (b : Byte) : (s.setDt b).Inv := ⟨h.mem, h.depth, h.entries, h.pc, h.fault⟩
theorem setSt (h : s.Inv) (b : Byte) : (s.setSt b).Inv := ⟨h.mem, h.depth, h.entries, h.pc, h.fault⟩
theorem setUnk (h : s.Inv) (b : Bool) : (s.setUnk b).Inv := ⟨h.mem, h.depth, h.entries, h.pc, h.fault⟩
theorem setInput (h : s.Inv) (inp : StepInput) : (s.setInput inp).Inv := ⟨h.mem, h.depth, h.entries, h.pc, h.fault⟩
theorem setSchedule (h : s.Inv) (l : List Event) : (s.setSchedule l).Inv := ⟨h.mem, h.depth, h.entries, h.pc, h.fault⟩
theorem setDraws (h : s.Inv) (n : Nat) : (s.setDraws n).Inv := ⟨h.mem, h.depth, h.entries, h.pc, h.fault⟩
theorem setDisp (h : s.Inv) (d : Vector (BitVec 64) 32) : (s.setDisp d).Inv :=
  ⟨h.mem, h.depth, h.entries, h.pc, h.fault⟩

theorem setPc (h : s.Inv) {w : Word} (hw : w.toNat ≤ 0x10FE) : (s.setPc w).Inv :=
  ⟨h.mem, h.depth, h.entries, hw, h.fault⟩

theorem setMem (h : s.Inv) {m : List Host.Cell} (hm : Memory.wf s.cfg.font m) : (s.setMem m).Inv :=
  ⟨hm, h.depth, h.entries, h.pc, h.fault⟩

theorem setStack (h : s.Inv) {l : List Word} (hd : l.length ≤ s.cfg.stackCapacity)
    (he : ∀ r ∈ l, 2 ≤ r.toNat ∧ r.toNat ≤ 4096) : (s.setStack l).Inv := ⟨h.mem, hd, he, h.pc, h.fault⟩

theorem takeFault (h : s.Inv) {f : Fault} (hf : FaultReg.legal ⟨f.code, f.info⟩) : (s.takeFault f).Inv :=
  ⟨h.mem, h.depth, h.entries, h.pc, hf⟩

theorem loadRegsFrom (h : s.Inv) (k : Nat) (bs : List Byte) : (s.loadRegsFrom k bs).Inv := by
  obtain ⟨w, hw⟩ := s.loadRegsFrom_frame bs k
  rw [hw]
  exact ⟨h.mem, h.depth, h.entries, h.pc, h.fault⟩

theorem advance (h : s.Inv) (hpc : s.pc.toNat ≤ 4094) : s.advance.Inv :=
  h.setPc (by bv_omega)

theorem skipIf (h : s.Inv) (hpc : s.pc.toNat ≤ 4096) (c : Bool) : (s.skipIf c).Inv := by
  cases c
  · exact h
  · exact h.setPc (by bv_omega)

/-- A block write inside memory (20_memory.md R65). -/
theorem store (h : s.Inv) {a : Nat} {bs : List Byte} (ha : a + bs.length ≤ 4096) :
    (s.setMem (Memory.writeAll s.cfg.font s.mem a bs)).Inv :=
  h.setMem (Memory.wf_writeAll h.mem ha)

theorem push (h : s.Inv) (hroom : s.stack.length < s.cfg.stackCapacity) {w : Word} (h2 : 2 ≤ w.toNat)
    (hw : w.toNat ≤ 4096) : (s.setStack (s.stack ++ [w])).Inv := by
  refine h.setStack (by simpa using hroom) fun r hr => ?_
  rcases List.mem_append.1 hr with hr | hr
  · exact h.entries r hr
  · cases List.mem_singleton.1 hr
    exact ⟨h2, hw⟩

/-- A return takes off an entry that is a legal `PC` (41_control_transfer.md R142). -/
theorem pop (h : s.Inv) {rest : List Word} {w : Word} (hs : s.stack = rest ++ [w]) : ((s.setStack rest).setPc w).Inv := by
  have hd := h.depth
  have he := h.entries
  rw [hs] at hd he
  have hrest : (s.setStack rest).Inv :=
    h.setStack (by simp only [List.length_append] at hd; omega) fun r hr => he r (List.mem_append_left _ hr)
  have hw := he w (by simp)
  exact hrest.setPc (by omega)

end State.Inv

/-! ### The faults that can be entered (60_exceptions.md R250 to R254) -/

theorem legal_addressOutOfRange {a : Nat} (h : 4095 ≤ a) (h' : a ≤ 0xFFFF) :
    FaultReg.legal ⟨(Fault.addressOutOfRange a).code, (Fault.addressOutOfRange a).info⟩ := by
  simp only [FaultReg.legal, Fault.code, Fault.info, BitVec.toNat_ofNat]
  omega

theorem legal_stackOverflow {ipc : Word} (h : ipc.toNat ≤ 4094) :
    FaultReg.legal ⟨(Fault.stackOverflow ipc).code, (Fault.stackOverflow ipc).info⟩ := by
  simp only [FaultReg.legal, Fault.code, Fault.info, BitVec.toNat_setWidth]
  omega

theorem legal_stackUnderflow {ipc : Word} (h : ipc.toNat ≤ 4094) :
    FaultReg.legal ⟨(Fault.stackUnderflow ipc).code, (Fault.stackUnderflow ipc).info⟩ := by
  simp only [FaultReg.legal, Fault.code, Fault.info, BitVec.toNat_setWidth]
  omega

theorem legal_imageTooLarge {n : Nat} (h : 3585 ≤ n) :
    FaultReg.legal ⟨(Fault.imageTooLarge n).code, (Fault.imageTooLarge n).info⟩ := by
  simp only [FaultReg.legal, Fault.code, Fault.info, BitVec.toNat_ofNat]
  omega

/-- The fault of a data access: its address comes from the 16 bits of `I` (43_index_and_memory.md R196). -/
theorem State.legal_dataFault (s : State) :
    FaultReg.legal ⟨(Fault.addressOutOfRange (max s.dataAddr 4096)).code,
      (Fault.addressOutOfRange (max s.dataAddr 4096)).info⟩ :=
  have : s.dataAddr < 2 ^ 16 := s.i.isLt
  legal_addressOutOfRange (by omega) (by omega)

/-! ### The invariant, instruction by instruction and event by event -/

theorem toNat_zextAddr (nnn : Addr) : (zextAddr nnn).toNat = nnn.toNat := by
  simp only [zextAddr, BitVec.toNat_setWidth]
  omega

/-- `nnn + V[0]` is at most 0xFFF + 0xFF (41_control_transfer.md R143, 40_fetch_decode_step.md R127). -/
theorem toNat_zextAddr_add_zextByte (nnn : Addr) (b : Byte) : (zextAddr nnn + zextByte b).toNat = nnn.toNat + b.toNat := by
  simp only [zextAddr, zextByte, BitVec.toNat_add, BitVec.toNat_setWidth]
  omega

/-- An instruction fetched from memory keeps the invariant. -/
theorem exec_keeps_inv {i : Instr} (hs : s.Inv) (hpc : s.pc.toNat ≤ 4094) (h : exec i s = .next t) : t.Inv := by
  have adv : s.advance.Inv := hs.advance hpc
  have hnext : (s.pc + 2).toNat = s.pc.toNat + 2 := by bv_omega
  have hskip : s.advance.pc.toNat ≤ 4096 := by rw [State.advance_pc, hnext]; omega
  cases i
  case ret =>
    obtain ⟨-, rfl⟩ | ⟨rest, w, hst, rfl⟩ := exec_ret_cases h
    · exact hs.takeFault (legal_stackUnderflow hpc)
    · exact hs.pop hst
  case call nnn =>
    obtain ⟨-, rfl⟩ | ⟨hroom, rfl⟩ := exec_call_cases h
    · exact hs.takeFault (legal_stackOverflow hpc)
    · have hw : (zextAddr nnn).toNat ≤ 0x10FE := by rw [toNat_zextAddr]; omega
      exact (adv.push hroom (by omega) (by omega)).setPc hw
  case ldB x =>
    obtain ⟨-, rfl⟩ | ⟨hin, rfl⟩ := exec_ldB_cases h
    · exact hs.takeFault s.legal_dataFault
    · exact adv.store (by simp only [bcdDigits, List.length_cons, List.length_nil]; omega)
  case stRegs x =>
    obtain ⟨-, rfl⟩ | ⟨hin, rfl⟩ := exec_stRegs_cases h
    · exact hs.takeFault s.legal_dataFault
    · have hblock : s.dataAddr + (s.blockOfRegs x).length ≤ 4096 := by rw [State.length_blockOfRegs]; omega
      exact (adv.store hblock).setI _
  case ldRegs x =>
    obtain ⟨-, rfl⟩ | ⟨-, rfl⟩ := exec_ldRegs_cases h
    · exact hs.takeFault s.legal_dataFault
    · exact (adv.loadRegsFrom _ _).setI _
  case drw x y n =>
    obtain ⟨-, rfl⟩ | ⟨-, rfl⟩ := exec_drw_cases h
    · exact hs.takeFault s.legal_dataFault
    · exact (adv.setDisp _).setReg _ _
  case jp nnn =>
    cases h
    exact hs.setPc (by rw [toNat_zextAddr]; omega)
  case jpV0 nnn =>
    cases h
    exact hs.setPc (by rw [toNat_zextAddr_add_zextByte]; omega)
  case ldVxK x =>
    cases h
    split
    · rwa [State.rewind_advance]
    · exact adv.setReg _ _
  case seImm | sneImm | seReg | sneReg | skp | sknp => cases h; exact adv.skipIf hskip _
  case ldImm | addImm | ldReg | orReg | andReg | xorReg | rnd | ldVxDt => cases h; exact adv.setReg _ _
  case addReg | sub | shr | subn | shl => cases h; exact (adv.setReg _ _).setReg _ _
  case ldI | addI | ldF => cases h; exact adv.setI _
  case ldDtVx => cases h; exact adv.setDt _
  case ldStVx => cases h; exact adv.setSt _
  case cls => cases h; exact adv.setDisp _

theorem State.Inv.sample (h : s.Inv) (inp : StepInput) : (s.sample inp).Inv := (h.setInput inp).setUnk false

/-- A STEP keeps the invariant, whichever of its four ways it takes (40_fetch_decode_step.md R120). -/
theorem stepUnit_keeps_inv {inp : StepInput} (hs : s.Inv) (h : stepUnit inp s = .next t) : t.Inv := by
  have smp := hs.sample inp
  obtain ⟨-, h⟩ | ⟨-, hpc, h⟩ | ⟨-, hpc, -, h⟩ | ⟨-, hpc, i, -, h⟩ := stepUnit_cases h
  · cases h
    exact smp
  · cases h
    exact smp.takeFault (legal_addressOutOfRange (by omega) (by omega))
  · cases h
    exact (smp.advance hpc).setUnk true
  · exact exec_keeps_inv smp hpc h.symm

/-- The cleared state has everything at the values of 10_state.md R32. -/
theorem State.inv_cleared (s : State) : s.cleared.Inv where
  mem := Memory.wf_nil
  depth := Nat.zero_le _
  entries := fun _ hr => absurd hr List.not_mem_nil
  pc := show (0x0200 : Word).toNat ≤ 0x10FE by decide
  fault := rfl

theorem State.inv_resetWith (s : State) (image : List Byte) : (s.resetWith image).Inv := by
  by_cases h : image.length + 0x200 ≤ 4096
  · rw [State.resetWith, if_pos h]
    exact s.inv_cleared.store (by omega)
  · rw [State.resetWith, if_neg h]
    exact s.inv_cleared.takeFault (legal_imageTooLarge (by omega))

theorem runEvent_keeps_inv {e : Event} (hs : s.Inv) (h : runEvent e s = .next t) : t.Inv := by
  cases e with
  | step inp => exact stepUnit_keeps_inv hs h
  | tick => cases h; exact (hs.setDt _).setSt _
  | reset image => injection h with h; exact h ▸ s.inv_resetWith image

theorem State.Inv.nextEvent (h : s.Inv) {e : Event} {u : State} (he : s.nextEvent = (e, u)) : u.Inv := by
  rw [State.nextEvent_frame he]
  exact (h.setSchedule _).setDraws _

end Sys2Proof.Machine

open Sys2Proof.Machine

/-- Settles O56: the reset state is a cleared one. -/
theorem resetMeetsTheInvariant : Obligations.ResetMeetsTheInvariant := State.reset.inv_cleared

/-- Settles O57: taking the event leaves what the invariant speaks of alone, and each of the three events keeps it. -/
theorem everyStepKeepsTheInvariant : Obligations.EveryStepKeepsTheInvariant := by
  intro s t hs h
  exact runEvent_keeps_inv (hs.nextEvent rfl) h
end

section
/-! What an instruction writes (10_state.md R43, column "written by"): each instruction is a chain of updates of pieces that
the table gives it. -/

namespace Sys2Proof.Machine
variable {s t u : State} {i : Instr}

/-! ### The sprite's footprint (44_display.md R212) -/

/-- Off the display nothing is lit. -/
theorem pixel_off (d : Vector (BitVec 64) 32) {r c : Nat} (h : ¬ (r < 32 ∧ c < 64)) : pixel d r c = false := by
  by_cases hr : r < 32
  · have hc : 64 ≤ c := Nat.le_of_not_lt fun hc => h ⟨hr, hc⟩
    simp [pixel, hr, BitVec.getMsbD_of_ge _ _ hc]
  · simp [pixel, hr]

/-- The footprint of a sprite of `n` rows at row `row` and column `oc` (44_display.md R212). -/
def InFootprint (row oc n r c : Nat) : Prop := row ≤ r ∧ r < row + n ∧ oc ≤ c ∧ c < oc + 8

theorem inFootprint_of_spriteBit {bs : List Byte} {row oc r c : Nat} (h : spriteBit bs row oc r c = true) :
    InFootprint row oc bs.length r c := by
  simp only [spriteBit, Bool.and_eq_true, decide_eq_true_eq] at h
  exact h.1

/-- The blit leaves every pixel outside the footprint alone. -/
theorem pixel_blit_of_not_inFootprint {bs : List Byte} (d : Vector (BitVec 64) 32) {row oc r c : Nat}
    (h : ¬ InFootprint row oc bs.length r c) : pixel (blit d row oc bs).1 r c = pixel d r c := by
  by_cases hd : r < 32 ∧ c < 64
  · have hbit : spriteBit bs row oc r c = false := by
      by_contra hb
      exact h (inFootprint_of_spriteBit (Bool.not_eq_false _ ▸ hb))
    rw [pixel_blit bs d row oc r c hd.1 hd.2, hbit, Bool.xor_false]
  · rw [pixel_off _ hd, pixel_off _ hd]

/-- Whatever the display held elsewhere: in the footprint the blit depends on the footprint alone. -/
theorem pixel_blit_congr {bs : List Byte} {d e : Vector (BitVec 64) 32} {row oc r c : Nat}
    (h : pixel e r c = pixel d r c) : pixel (blit e row oc bs).1 r c = pixel (blit d row oc bs).1 r c := by
  by_cases hd : r < 32 ∧ c < 64
  · rw [pixel_blit bs e row oc r c hd.1 hd.2, pixel_blit bs d row oc r c hd.1 hd.2, h]
  · rw [pixel_off _ hd, pixel_off _ hd]

theorem blit_collided_congr {bs : List Byte} {d e : Vector (BitVec 64) 32} {row oc : Nat}
    (h : ∀ r c, InFootprint row oc bs.length r c → pixel e r c = pixel d r c) :
    (blit e row oc bs).2 = (blit d row oc bs).2 := by
  rw [Bool.eq_iff_iff, blit_collided, blit_collided]
  refine exists_congr fun r => exists_congr fun c => and_congr_right fun _ => and_congr_right fun _ =>
    and_congr_left fun hb => ?_
  rw [h r c (inFootprint_of_spriteBit hb)]

@[simp] theorem State.length_sprite (s : State) (n : Nibble) : (s.sprite n).length = n.toNat := by
  simp [State.sprite]

/-! ### The chain of updates of each instruction -/

/-- The pieces an instruction that does not fault may change. -/
def Commits (i : Instr) (s : State) (p : Piece) : Prop := i.writes s p ∧ p ≠ .fault

/-- One more update, of a piece the table gives the instruction. -/
theorem OnlyChanged.write {q : Piece} (h : OnlyChanged (Commits i s) s t) (h' : OnlyChanged (· = q) t u)
    (hq : i.writes s q) (hf : q ≠ .fault := by nofun) : OnlyChanged (Commits i s) s u := h.stepOne h' ⟨hq, hf⟩

/-- `PC` is a piece every instruction writes. -/
theorem onlyChanged_commits_advance (i : Instr) (s : State) : OnlyChanged (Commits i s) s s.advance :=
  (OnlyChanged.refl _ s).write s.onlyChanged_advance trivial

/-- What an instruction changes: FAULT alone, when it is one that can fault, or what the table gives it and not FAULT. -/
theorem exec_onlyChanged (h : exec i s = .next t) :
    OnlyChanged (fun p => p = .fault ∧ i.canFault = true) s t ∨ OnlyChanged (Commits i s) s t := by
  have fault : i.canFault = true → ∀ f, OnlyChanged (fun p => p = .fault ∧ i.canFault = true) s (s.takeFault f) :=
    fun hc f => (s.onlyChanged_takeFault f).mono fun _ hp => ⟨hp, hc⟩
  have adv := onlyChanged_commits_advance i s
  cases i
  case ret =>
    obtain ⟨-, rfl⟩ | ⟨rest, w, -, rfl⟩ := exec_ret_cases h
    · exact Or.inl (fault rfl _)
    · have popped := (OnlyChanged.refl (Commits .ret s) s).write (s.onlyChanged_setStack rest) trivial
      exact Or.inr (popped.write (State.onlyChanged_setPc _ w) trivial)
  case call nnn =>
    obtain ⟨-, rfl⟩ | ⟨-, rfl⟩ := exec_call_cases h
    · exact Or.inl (fault rfl _)
    · have pushed := adv.write (State.onlyChanged_setStack _ (s.stack ++ [s.pc + 2])) trivial
      exact Or.inr (pushed.write (State.onlyChanged_setPc _ _) trivial)
  case ldB x =>
    obtain ⟨-, rfl⟩ | ⟨-, rfl⟩ := exec_ldB_cases h
    · exact Or.inl (fault rfl _)
    · refine Or.inr (adv.step (s.advance.onlyChanged_store _ _) ?_)
      rintro _ ⟨b, hb, rfl⟩
      exact ⟨hb, nofun⟩
  case stRegs x =>
    obtain ⟨-, rfl⟩ | ⟨-, rfl⟩ := exec_stRegs_cases h
    · exact Or.inl (fault rfl _)
    · refine Or.inr (OnlyChanged.write ?_ (State.onlyChanged_setI _ _) trivial)
      refine adv.step (s.advance.onlyChanged_store _ _) ?_
      rintro _ ⟨b, hb, rfl⟩
      rw [State.length_blockOfRegs] at hb
      exact ⟨hb, nofun⟩
  case ldRegs x =>
    obtain ⟨-, rfl⟩ | ⟨-, rfl⟩ := exec_ldRegs_cases h
    · exact Or.inl (fault rfl _)
    · refine Or.inr (OnlyChanged.write ?_ (State.onlyChanged_setI _ _) trivial)
      refine adv.step (State.onlyChanged_loadRegsFrom _ _ 0 (by rw [State.length_bytesAtI]; omega)) ?_
      rintro _ ⟨j, hj, rfl⟩
      rw [State.length_bytesAtI] at hj
      have hjx : j ≤ x := BitVec.le_def.2 (by omega)
      exact ⟨hjx, nofun⟩
  case drw x y n =>
    obtain ⟨-, rfl⟩ | ⟨-, rfl⟩ := exec_drw_cases h
    · exact Or.inl (fault rfl _)
    · refine Or.inr (OnlyChanged.write ?_ (State.onlyChanged_setReg _ vf _) rfl)
      refine adv.step (State.onlyChanged_setDisp fun r c hrc => pixel_blit_of_not_inFootprint _ hrc) ?_
      rintro _ ⟨r, c, hrc, rfl⟩
      rw [State.length_sprite] at hrc
      exact ⟨hrc, nofun⟩
  case cls =>
    cases h
    refine Or.inr (adv.step (State.onlyChanged_setDisp (P := fun _ _ => True) fun _ _ hrc => absurd trivial hrc) ?_)
    rintro _ ⟨r, c, -, rfl⟩
    exact ⟨trivial, nofun⟩
  case jp | jpV0 =>
    cases h
    exact Or.inr ((OnlyChanged.refl _ s).write (s.onlyChanged_setPc _) trivial)
  case ldVxK x =>
    cases h
    right
    split
    · rw [State.rewind_advance]
      exact OnlyChanged.refl _ s
    · exact adv.write (State.onlyChanged_setReg _ x _) rfl
  case seImm | sneImm | seReg | sneReg | skp | sknp =>
    cases h
    exact Or.inr (adv.write (State.onlyChanged_skipIf _ _) trivial)
  case ldImm | addImm | ldReg | orReg | andReg | xorReg | rnd | ldVxDt =>
    cases h
    exact Or.inr (adv.write (State.onlyChanged_setReg _ _ _) rfl)
  case addReg | sub | shr | subn | shl =>
    cases h
    have flag (b : Byte) := adv.write (State.onlyChanged_setReg _ vf b) (Or.inr rfl)
    exact Or.inr ((flag _).write (State.onlyChanged_setReg _ _ _) (Or.inl rfl))
  case ldI | addI | ldF =>
    cases h
    exact Or.inr (adv.write (State.onlyChanged_setI _ _) trivial)
  case ldDtVx =>
    cases h
    exact Or.inr (adv.write (State.onlyChanged_setDt _ _) trivial)
  case ldStVx =>
    cases h
    exact Or.inr (adv.write (State.onlyChanged_setSt _ _) trivial)

end Sys2Proof.Machine

open Sys2Proof.Machine

/-- Settles O58: an instruction is a chain of updates, each of a piece the table gives it. -/
theorem onlyTheTablesWrites : Obligations.OnlyTheTablesWrites := fun _ _ _ h => exec_onlyChanged h
end

section
/-! What an instruction reads (10_state.md R43, column "read by"): two runs from states that agree on it make the same updates
with the same values. -/

namespace Sys2Proof.Machine
variable {s t s' t' s'' t'' : State} {i : Instr}

/-! ### Two runs side by side -/

/-- What the runs from `s` to `s'` and from `t` to `t'` leave: every piece is the same in both results or unchanged in
each. -/
def Alike (s t s' t' : State) : Prop := ∀ p : Piece, p.same s' t' ∨ (p.same s s' ∧ p.same t t')

namespace Alike

theorem refl (s t : State) : Alike s t s t := fun p => Or.inr ⟨p.same_refl s, p.same_refl t⟩

/-- Both runs update the same pieces, to the same values. -/
theorem step {ch : Piece → Prop} (h : Alike s t s' t') (hs : OnlyChanged ch s' s'') (ht : OnlyChanged ch t' t'')
    (hch : ∀ p, ch p → p.same s'' t'') : Alike s t s'' t'' := by
  intro p
  by_cases hp : ch p
  · exact Or.inl (hch p hp)
  · have ks := hs p hp
    have kt := ht p hp
    rcases h p with hr | ⟨hs', ht'⟩
    · exact Or.inl (Piece.same_trans (Piece.same_trans (Piece.same_symm ks) hr) kt)
    · exact Or.inr ⟨Piece.same_trans hs' ks, Piece.same_trans ht' kt⟩

theorem stepOne {q : Piece} (h : Alike s t s' t') (hs : OnlyChanged (· = q) s' s'') (ht : OnlyChanged (· = q) t' t'')
    (hq : q.same s'' t'') : Alike s t s'' t'' := h.step hs ht (by rintro _ rfl; exact hq)

theorem setReg (h : Alike s t s' t') (k : Nibble) {b c : Byte} (e : c = b) : Alike s t (s'.setReg k b) (t'.setReg k c) :=
  h.stepOne (s'.onlyChanged_setReg k b) (t'.onlyChanged_setReg k c) (by simpa [Piece.same] using e)

theorem setI (h : Alike s t s' t') {w v : Word} (e : v = w) : Alike s t (s'.setI w) (t'.setI v) :=
  h.stepOne (s'.onlyChanged_setI w) (t'.onlyChanged_setI v) e

theorem setPc (h : Alike s t s' t') {w v : Word} (e : v = w) : Alike s t (s'.setPc w) (t'.setPc v) :=
  h.stepOne (s'.onlyChanged_setPc w) (t'.onlyChanged_setPc v) e

theorem setDt (h : Alike s t s' t') {b c : Byte} (e : c = b) : Alike s t (s'.setDt b) (t'.setDt c) :=
  h.stepOne (s'.onlyChanged_setDt b) (t'.onlyChanged_setDt c) e

theorem setSt (h : Alike s t s' t') {b c : Byte} (e : c = b) : Alike s t (s'.setSt b) (t'.setSt c) :=
  h.stepOne (s'.onlyChanged_setSt b) (t'.onlyChanged_setSt c) e

theorem setStack (h : Alike s t s' t') {l m : List Word} (e : m = l) : Alike s t (s'.setStack l) (t'.setStack m) :=
  h.stepOne (s'.onlyChanged_setStack l) (t'.onlyChanged_setStack m) e

theorem takeFault (h : Alike s t s' t') {f g : Fault} (e : g = f) : Alike s t (s'.takeFault f) (t'.takeFault g) :=
  h.stepOne (s'.onlyChanged_takeFault f) (t'.onlyChanged_takeFault g) (by subst e; rfl)

theorem skipIf (h : Alike s t s' t') (hpc : t'.pc = s'.pc) {b c : Bool} (e : c = b) :
    Alike s t (s'.skipIf b) (t'.skipIf c) :=
  h.stepOne (s'.onlyChanged_skipIf b) (t'.onlyChanged_skipIf c) (by simp [Piece.same, hpc, e])

theorem writeFlagThenResult (h : Alike s t s' t') (x : Nibble) {f g b c : Byte} (ef : g = f) (e : c = b) :
    Alike s t (s'.writeFlagThenResult x f b) (t'.writeFlagThenResult x g c) := (h.setReg vf ef).setReg x e

theorem setDisp {P : Nat → Nat → Prop} (h : Alike s t s' t') {d e : Vector (BitVec 64) 32}
    (hd : ∀ r c, ¬ P r c → pixel d r c = pixel s'.disp r c) (he : ∀ r c, ¬ P r c → pixel e r c = pixel t'.disp r c)
    (hP : ∀ r c, P r c → pixel e r c = pixel d r c) : Alike s t (s'.setDisp d) (t'.setDisp e) :=
  h.step (State.onlyChanged_setDisp hd) (State.onlyChanged_setDisp he) (by rintro _ ⟨r, c, hrc, rfl⟩; exact hP r c hrc)

/-- The same bytes stored at the same address, whatever the two memories and fonts. -/
theorem store (h : Alike s t s' t') {a a' : Nat} {bs bs' : List Byte} (ha : a' = a) (hbs : bs' = bs) :
    Alike s t (s'.setMem (Memory.writeAll s'.cfg.font s'.mem a bs))
      (t'.setMem (Memory.writeAll t'.cfg.font t'.mem a' bs')) := by
  subst ha hbs
  refine h.step (s'.onlyChanged_store _ _) (t'.onlyChanged_store _ _) ?_
  rintro _ ⟨b, hb, rfl⟩
  exact (t'.memRead_store_of_mem hb).trans (s'.memRead_store_of_mem hb).symm

theorem loadRegsFrom (h : Alike s t s' t') {bs bs' : List Byte} (hlen : bs.length ≤ 16) (hbs : bs' = bs) :
    Alike s t (s'.loadRegsFrom 0 bs) (t'.loadRegsFrom 0 bs') := by
  subst hbs
  have hlen : 0 + bs'.length ≤ 16 := by omega
  refine h.step (State.onlyChanged_loadRegsFrom bs' s' 0 hlen) (State.onlyChanged_loadRegsFrom bs' t' 0 hlen) ?_
  rintro _ ⟨j, hj, rfl⟩
  show (t'.loadRegsFrom 0 bs').reg j = (s'.loadRegsFrom 0 bs').reg j
  rw [State.reg_loadRegsFrom bs' t' 0 j hlen, State.reg_loadRegsFrom bs' s' 0 j hlen, if_pos hj, if_pos hj]

theorem advance (hpc : t.pc = s.pc) : Alike s t s.advance t.advance :=
  (Alike.refl s t).setPc (by rw [hpc])

end Alike

/-! ### Operands from equal pieces -/

theorem pressed_congr {inp inp' : StepInput} {k k' : Byte} (hk : k' = k) (hkeys : inp'.keys = inp.keys)
    (habs : 16 ≤ k.toNat → inp'.absentKey = inp.absentKey) : pressed inp' k' = pressed inp k := by
  subst hk
  by_cases h : k'.toNat ≤ 15
  · simp [pressed, h, hkeys]
  · simp [pressed, h, habs (by omega)]

theorem deliveredKey_congr {inp inp' : StepInput} (hkeys : inp'.keys = inp.keys)
    (hchoice : inp'.keyChoice = inp.keyChoice) : deliveredKey inp' = deliveredKey inp := by
  simp only [deliveredKey, hkeys, hchoice]

theorem State.blockOfRegs_congr {x : Nibble} (h : ∀ k ≤ x, t.reg k = s.reg k) : t.blockOfRegs x = s.blockOfRegs x := by
  refine List.map_congr_left fun k hk => h _ (BitVec.le_def.2 ?_)
  rw [List.mem_range] at hk
  rw [BitVec.toNat_ofNat]
  omega

theorem State.byteAt_congr {a : Nat} (ha : a < 4096) (h : t.memRead a = s.memRead a) : t.byteAt a = s.byteAt a := by
  rw [State.memRead_of_lt t ha, State.memRead_of_lt s ha] at h
  exact Except.ok.inj h

/-- Equal bytes of memory from an equal `I` up. -/
theorem State.bytesAtI_congr {n : Nat} (ha : t.dataAddr = s.dataAddr) (hn : n = 0 ∨ s.dataAddr + n ≤ 4096)
    (h : ∀ a, s.dataAddr ≤ a ∧ a < s.dataAddr + n → t.memRead a = s.memRead a) : t.bytesAtI n = s.bytesAtI n := by
  refine List.map_congr_left fun k hk => ?_
  rw [List.mem_range] at hk
  rw [ha]
  exact State.byteAt_congr (by omega) (h _ (by omega))

/-! ### The two runs of each instruction -/

/-- The two states agree on what the instruction reads. -/
def ReadsAgree (i : Instr) (s t : State) : Prop := ∀ p, i.reads s p → p.same s t

theorem alike_ret (hr : ReadsAgree .ret s t) (h : exec .ret s = .next s') (h' : exec .ret t = .next t') :
    Alike s t s' t' := by
  have hpc : t.pc = s.pc := hr .pc trivial
  have hst : t.stack = s.stack := hr .stack trivial
  obtain ⟨hs, rfl⟩ | ⟨rest, w, hs, rfl⟩ := exec_ret_cases h
  · rw [exec_ret_fault t (hst.trans hs)] at h'
    cases h'
    exact (Alike.refl s t).takeFault (by rw [hpc])
  · rw [exec_ret_ok t (hst.trans hs)] at h'
    cases h'
    exact ((Alike.refl s t).setStack rfl).setPc rfl

theorem alike_call {nnn : Addr} (hr : ReadsAgree (.call nnn) s t) (h : exec (.call nnn) s = .next s')
    (h' : exec (.call nnn) t = .next t') : Alike s t s' t' := by
  have hpc : t.pc = s.pc := hr .pc trivial
  have hst : t.stack = s.stack := hr .stack trivial
  have hcfg : t.cfg = s.cfg := hr .parameters trivial
  obtain ⟨hs, rfl⟩ | ⟨hs, rfl⟩ := exec_call_cases h
  · rw [exec_call_fault nnn t (by rwa [hcfg, hst])] at h'
    cases h'
    exact (Alike.refl s t).takeFault (by rw [hpc])
  · rw [exec_call_ok nnn t (by rwa [hcfg, hst])] at h'
    cases h'
    exact ((Alike.advance hpc).setStack (by rw [hst, hpc])).setPc rfl

theorem alike_ldB {x : Nibble} (hr : ReadsAgree (.ldB x) s t) (h : exec (.ldB x) s = .next s')
    (h' : exec (.ldB x) t = .next t') : Alike s t s' t' := by
  have hpc : t.pc = s.pc := hr .pc trivial
  have hx : t.reg x = s.reg x := hr (.reg x) rfl
  have ha : t.dataAddr = s.dataAddr := congrArg BitVec.toNat (hr .index trivial)
  obtain ⟨hs, rfl⟩ | ⟨hs, rfl⟩ := exec_ldB_cases h
  · rw [exec_ldB_fault x t (by rwa [ha])] at h'
    cases h'
    exact (Alike.refl s t).takeFault (by rw [ha])
  · rw [exec_ldB_ok x t (by rwa [ha])] at h'
    cases h'
    exact (Alike.advance hpc).store ha (by rw [hx])

theorem State.pastBlock_congr {x : Nibble} (h : t.i = s.i) : t.pastBlock x = s.pastBlock x := by
  rw [State.pastBlock, State.pastBlock, h]

theorem alike_stRegs {x : Nibble} (hr : ReadsAgree (.stRegs x) s t) (h : exec (.stRegs x) s = .next s')
    (h' : exec (.stRegs x) t = .next t') : Alike s t s' t' := by
  have hpc : t.pc = s.pc := hr .pc trivial
  have hi : t.i = s.i := hr .index trivial
  have ha : t.dataAddr = s.dataAddr := congrArg BitVec.toNat hi
  have hblock : t.blockOfRegs x = s.blockOfRegs x := State.blockOfRegs_congr fun k hk => hr (.reg k) hk
  obtain ⟨hs, rfl⟩ | ⟨hs, rfl⟩ := exec_stRegs_cases h
  · rw [exec_stRegs_fault x t (by rwa [ha])] at h'
    cases h'
    exact (Alike.refl s t).takeFault (by rw [ha])
  · rw [exec_stRegs_ok x t (by rwa [ha])] at h'
    cases h'
    exact ((Alike.advance hpc).store ha hblock).setI (State.pastBlock_congr hi)

theorem alike_ldRegs {x : Nibble} (hr : ReadsAgree (.ldRegs x) s t) (h : exec (.ldRegs x) s = .next s')
    (h' : exec (.ldRegs x) t = .next t') : Alike s t s' t' := by
  have hpc : t.pc = s.pc := hr .pc trivial
  have hi : t.i = s.i := hr .index trivial
  have ha : t.dataAddr = s.dataAddr := congrArg BitVec.toNat hi
  obtain ⟨hs, rfl⟩ | ⟨hs, rfl⟩ := exec_ldRegs_cases h
  · rw [exec_ldRegs_fault x t (by rwa [ha])] at h'
    cases h'
    exact (Alike.refl s t).takeFault (by rw [ha])
  · rw [exec_ldRegs_ok x t (by rwa [ha])] at h'
    cases h'
    have hbytes : t.bytesAtI (x.toNat + 1) = s.bytesAtI (x.toNat + 1) :=
      State.bytesAtI_congr ha (Or.inr (by omega)) fun a hin => hr (.memByte a) hin
    have hlen : (s.bytesAtI (x.toNat + 1)).length ≤ 16 := by rw [State.length_bytesAtI]; omega
    exact ((Alike.advance hpc).loadRegsFrom hlen hbytes).setI (State.pastBlock_congr hi)

theorem alike_drw {x y n : Nibble} (hr : ReadsAgree (.drw x y n) s t) (h : exec (.drw x y n) s = .next s')
    (h' : exec (.drw x y n) t = .next t') : Alike s t s' t' := by
  have hpc : t.pc = s.pc := hr .pc trivial
  have hx : t.reg x = s.reg x := hr (.reg x) (Or.inl rfl)
  have hy : t.reg y = s.reg y := hr (.reg y) (Or.inr rfl)
  have ha : t.dataAddr = s.dataAddr := congrArg BitVec.toNat (hr .index trivial)
  have hsm : t.spriteInMemory n ↔ s.spriteInMemory n := by rw [State.spriteInMemory, State.spriteInMemory, ha]
  obtain ⟨hs, rfl⟩ | ⟨hs, rfl⟩ := exec_drw_cases h
  · rw [exec_drw_of_not_spriteInMemory (mt hsm.1 hs)] at h'
    cases h'
    exact (Alike.refl s t).takeFault (by rw [ha])
  · rw [exec_drw_of_spriteInMemory (hsm.2 hs)] at h'
    cases h'
    have hn : n.toNat = 0 ∨ s.dataAddr + n.toNat ≤ 4096 := hs.imp_left fun e => by rw [e]; rfl
    have hsprite : t.sprite n = s.sprite n := State.bytesAtI_congr ha hn fun a hin => hr (.memByte a) hin
    have hpix : ∀ r c, InFootprint (s.reg y).toNat (s.reg x).toNat (s.sprite n).length r c →
        pixel t.disp r c = pixel s.disp r c := by
      intro r c hrc
      rw [State.length_sprite] at hrc
      exact hr (.pixel r c) hrc
    have hdrawn : t.drawn x y n = blit t.disp (s.reg y).toNat (s.reg x).toNat (s.sprite n) := by
      rw [State.drawn, hx, hy, hsprite]
    rw [hdrawn]
    refine Alike.setReg ?_ vf (congrArg collisionFlag (blit_collided_congr hpix))
    exact (Alike.advance hpc).setDisp (fun r c hrc => pixel_blit_of_not_inFootprint _ hrc)
      (fun r c hrc => pixel_blit_of_not_inFootprint _ hrc) fun r c hrc => pixel_blit_congr (hpix r c hrc)

theorem alike_ldVxK {x : Nibble} (hr : ReadsAgree (.ldVxK x) s t) (h : exec (.ldVxK x) s = .next s')
    (h' : exec (.ldVxK x) t = .next t') : Alike s t s' t' := by
  have hpc : t.pc = s.pc := hr .pc trivial
  have hkeys : t.input.keys = s.input.keys := hr .keys trivial
  have hchoice : t.input.keyChoice = s.input.keyChoice := hr .keyChoice trivial
  cases h
  cases h'
  rw [hkeys]
  split
  · rw [State.rewind_advance, State.rewind_advance]
    exact Alike.refl s t
  · exact (Alike.advance hpc).setReg x (deliveredKey_congr hkeys hchoice)

/-- Two states that agree on what an instruction reads: it does the same to both. -/
theorem exec_alike (hr : ReadsAgree i s t) (h : exec i s = .next s') (h' : exec i t = .next t') : Alike s t s' t' := by
  have hpc : t.pc = s.pc := hr .pc trivial
  have adv := Alike.advance hpc
  have hnext : t.advance.pc = s.advance.pc := by rw [State.advance_pc, State.advance_pc, hpc]
  cases i
  case ret => exact alike_ret hr h h'
  case call => exact alike_call hr h h'
  case ldB => exact alike_ldB hr h h'
  case stRegs => exact alike_stRegs hr h h'
  case ldRegs => exact alike_ldRegs hr h h'
  case drw => exact alike_drw hr h h'
  case ldVxK => exact alike_ldVxK hr h h'
  all_goals
    cases h
    cases h'
  case jp => exact (Alike.refl s t).setPc rfl
  case jpV0 =>
    have h0 : t.reg 0 = s.reg 0 := hr (.reg 0) rfl
    exact (Alike.refl s t).setPc (by rw [h0])
  case cls =>
    exact adv.setDisp (P := fun _ _ => True) (fun _ _ h => absurd trivial h) (fun _ _ h => absurd trivial h)
      fun _ _ _ => rfl
  case seImm x nn | sneImm x nn =>
    have hx : t.reg x = s.reg x := hr (.reg x) rfl
    exact adv.skipIf hnext (by rw [hx])
  case seReg x y | sneReg x y =>
    have hx : t.reg x = s.reg x := hr (.reg x) (Or.inl rfl)
    have hy : t.reg y = s.reg y := hr (.reg y) (Or.inr rfl)
    exact adv.skipIf hnext (by rw [hx, hy])
  case skp x | sknp x =>
    have hpressed : pressed t.input (t.reg x) = pressed s.input (s.reg x) :=
      pressed_congr (hr (.reg x) rfl) (hr .keys trivial) fun h => hr .absentKey h
    exact adv.skipIf hnext (by rw [hpressed])
  case ldImm => exact adv.setReg _ rfl
  case addImm x nn =>
    have hx : t.reg x = s.reg x := hr (.reg x) rfl
    exact adv.setReg x (by rw [hx])
  case ldReg x y => exact adv.setReg x (hr (.reg y) rfl)
  case orReg x y | andReg x y | xorReg x y =>
    have hx : t.reg x = s.reg x := hr (.reg x) (Or.inl rfl)
    have hy : t.reg y = s.reg y := hr (.reg y) (Or.inr rfl)
    exact adv.setReg x (by rw [hx, hy])
  case addReg x y | sub x y | subn x y =>
    have hx : t.reg x = s.reg x := hr (.reg x) (Or.inl rfl)
    have hy : t.reg y = s.reg y := hr (.reg y) (Or.inr rfl)
    exact adv.writeFlagThenResult x (by rw [hx, hy]) (by rw [hx, hy])
  case shr x y | shl x y =>
    have hy : t.reg y = s.reg y := hr (.reg y) rfl
    exact adv.writeFlagThenResult x (by rw [hy]) (by rw [hy])
  case rnd x nn =>
    have hrnd : t.input.rnd = s.input.rnd := hr .randomByte trivial
    exact adv.setReg x (by rw [hrnd])
  case ldVxDt x => exact adv.setReg x (hr .delay trivial)
  case ldDtVx x => exact adv.setDt (hr (.reg x) rfl)
  case ldStVx x => exact adv.setSt (hr (.reg x) rfl)
  case ldI => exact adv.setI rfl
  case addI x =>
    have hi : t.i = s.i := hr .index trivial
    have hx : t.reg x = s.reg x := hr (.reg x) rfl
    exact adv.setI (by rw [hi, hx])
  case ldF x =>
    have hx : t.reg x = s.reg x := hr (.reg x) rfl
    exact adv.setI (by rw [hx])

end Sys2Proof.Machine

open Sys2Proof.Machine

/-- Settles O59: the two runs are the same chain of updates with the same values. -/
theorem onlyTheTablesReads : Obligations.OnlyTheTablesReads := fun _ _ _ _ _ hr h h' => exec_alike hr h h'
end

section
/-! VF, the three events one after another, TICK and RESET (10_state.md R22, R32, R39 to R42). -/

namespace Sys2Proof.Machine
variable {s t u : State} {i : Instr}

/-! ### VF (10_state.md R22) -/

theorem flagByte_zero_or_one (c : Bool) : flagByte c = 0 ∨ flagByte c = 1 := by
  cases c
  · exact Or.inl rfl
  · exact Or.inr rfl

theorem shiftedOutRight_zero_or_one (b : Byte) : shiftedOutRight b = 0 ∨ shiftedOutRight b = 1 := by
  revert b
  decide

theorem shiftedOutLeft_zero_or_one (b : Byte) : shiftedOutLeft b = 0 ∨ shiftedOutLeft b = 1 := by
  revert b
  decide

theorem State.vf_writeFlagThenResult (s : State) {x : Nibble} (hx : x ≠ vf) (f b : Byte) :
    (s.writeFlagThenResult x f b).reg vf = f := by
  rw [State.reg_writeFlagThenResult, if_neg hx.symm, if_pos rfl]

/-- A register that an instruction changes is one that the table gives it. -/
theorem writesReg_of_exec {k : Nibble} (h : exec i s = .next t) (hk : t.reg k ≠ s.reg k) : i.writesReg k := by
  by_contra hw
  rcases exec_onlyChanged h with hc | hc
  · exact hk (hc (.reg k) fun hp => Piece.noConfusion hp.1)
  · exact hk (hc (.reg k) fun hp => hw hp.1)

/-- The five flag writers of 42_register_alu.md R166 to R170, which have VF beside their destination. -/
theorem vf_zero_or_one_of_flagWriter {x y : Nibble} (h : exec i s = .next t)
    (hi : i = .addReg x y ∨ i = .sub x y ∨ i = .shr x y ∨ i = .subn x y ∨ i = .shl x y) (hx : x ≠ vf) :
    t.reg vf = 0 ∨ t.reg vf = 1 := by
  have flag {f b : Byte} (hf : f = 0 ∨ f = 1) :
      (s.advance.writeFlagThenResult x f b).reg vf = 0 ∨ (s.advance.writeFlagThenResult x f b).reg vf = 1 := by
    rwa [s.advance.vf_writeFlagThenResult hx]
  rcases hi with rfl | rfl | rfl | rfl | rfl <;> cases h
  · exact flag (flagByte_zero_or_one _)
  · exact flag (flagByte_zero_or_one _)
  · exact flag (shiftedOutRight_zero_or_one _)
  · exact flag (flagByte_zero_or_one _)
  · exact flag (shiftedOutLeft_zero_or_one _)

theorem vf_zero_or_one_of_drw {x y n : Nibble} (h : exec (.drw x y n) s = .next t) (hs : s.spriteInMemory n) :
    t.reg vf = 0 ∨ t.reg vf = 1 := by
  rw [exec_drw_of_spriteInMemory hs] at h
  cases h
  rw [State.reg_setReg_self]
  exact flagByte_zero_or_one _

theorem eq_vf_of_vf_le {x : Nibble} (h : vf ≤ x) : x = vf := by
  revert x
  decide

/-! ### Everything answers a next state (40_fetch_decode_step.md R131) -/

theorem finish_isNext (s : State) (r : Except Fault State) : ∃ t, finish s r = .next t := by
  cases r
  · exact ⟨_, rfl⟩
  · exact ⟨_, rfl⟩

/-- Every instruction answers a next state. -/
theorem exec_isNext (i : Instr) (s : State) : ∃ t, exec i s = .next t := by
  cases i
  case ret | call | ldB | stRegs | ldRegs | drw => exact finish_isNext _ _
  all_goals exact ⟨_, rfl⟩

theorem stepUnit_isNext (inp : StepInput) (s : State) : ∃ t, stepUnit inp s = .next t := by
  obtain ⟨-, h⟩ | ⟨-, -, h⟩ | ⟨-, -, -, h⟩ | ⟨-, -, i, -, h⟩ := stepUnit_cases (inp := inp) (s := s) rfl
  · exact ⟨_, h⟩
  · exact ⟨_, h⟩
  · exact ⟨_, h⟩
  · rw [h]
    exact exec_isNext i _

theorem runEvent_isNext (e : Event) (s : State) : ∃ t, runEvent e s = .next t := by
  cases e with
  | step inp => exact stepUnit_isNext inp s
  | tick => exact ⟨_, rfl⟩
  | reset image => exact ⟨_, rfl⟩

/-! ### TICK (10_state.md R39) -/

theorem toNat_countDown (b : Byte) : (countDown b).toNat = b.toNat - 1 := by
  by_cases h : b = 0
  · subst h
    rfl
  · rw [countDown, if_neg h]
    bv_omega

/-- Taking the event changes the environment alone. -/
theorem State.onlyChanged_nextEvent {e : Event} (h : s.nextEvent = (e, u)) : OnlyChanged (· = .environment) s u := by
  rw [State.nextEvent_frame h]
  exact (s.onlyChanged_setSchedule _).trans (State.onlyChanged_setDraws _ _)

theorem State.onlyChanged_tick (s : State) : OnlyChanged (fun p => p = .delay ∨ p = .sound) s s.tick :=
  ((OnlyChanged.refl _ s).stepOne (s.onlyChanged_setDt _) (Or.inl rfl)).stepOne (State.onlyChanged_setSt _ _) (Or.inr rfl)

/-! ### RESET (10_state.md R32) -/

theorem State.resetWith_of_fits (s : State) {image : List Byte} (h : image.length ≤ 3584) :
    s.resetWith image = s.cleared.setMem (Memory.writeAll s.cleared.cfg.font s.cleared.mem 0x200 image) := by
  rw [State.resetWith, if_pos (by omega)]
  rfl

theorem State.byteAt_cleared (s : State) (a : Nat) : s.cleared.byteAt a = initialByte s.cfg.font a := rfl

/-- The font, zeros and, from 0x200 up, the image (20_memory.md R63). -/
theorem State.byteAt_resetWith (s : State) {image : List Byte} (h : image.length ≤ 3584) (a : Nat) :
    (s.resetWith image).byteAt a =
      if hf : a < 80 then s.cfg.font[a]
      else if 0x200 ≤ a ∧ a < 0x200 + image.length then image.getD (a - 0x200) 0 else 0 := by
  rw [s.resetWith_of_fits h, State.byteAt_setMem_writeAll, State.byteAt_cleared, initialByte]
  by_cases hf : a < 80
  · rw [dif_pos hf, dif_pos hf, if_neg (by omega)]
  · rw [dif_neg hf, dif_neg hf]

theorem State.hasResetValues_resetWith (s : State) {image : List Byte} (h : image.length ≤ 3584) :
    Claims.HasResetValues s.cfg.font image (s.resetWith image) where
  mem := fun a ha => by rw [State.memRead_of_lt _ ha, s.byteAt_resetWith h a]
  v := fun k => by
    rw [s.resetWith_of_fits h, State.setMem_reg]
    exact Vector.getElem_replicate k.isLt
  i := by rw [s.resetWith_of_fits h]; rfl
  pc := by rw [s.resetWith_of_fits h]; rfl
  dt := by rw [s.resetWith_of_fits h]; rfl
  st := by rw [s.resetWith_of_fits h]; rfl
  stack := by rw [s.resetWith_of_fits h]; rfl
  disp := fun r c => by
    rw [s.resetWith_of_fits h, State.setMem_disp]
    simp [State.cleared, State.reset, pixel]

/-! ### Runs (10_state.md R40, R41) -/

/-- One step of a run takes its event and leaves the schedule and the count of free values as taking it left them. -/
theorem step_takes_event {e : Event} (h : s.nextEvent = (e, u)) :
    ∃ v, step s = runEvent e u ∧ step s = .next v ∧ v.schedule = u.schedule ∧ v.draws = u.draws := by
  have hrun := step_of_nextEvent h
  obtain ⟨v, hv⟩ := runEvent_isNext e u
  obtain ⟨-, hsched, hdraws⟩ := runEvent_environment hv
  exact ⟨v, hrun, hrun.trans hv, hsched, hdraws⟩

/-- Any finite order is a run. -/
theorem runsThrough_schedule (events rest : List Event) (s : State) (h : s.schedule = events ++ rest) :
    ∃ t, Claims.RunsThrough events s t ∧ t.schedule = rest ∧ t.draws = s.draws := by
  induction events generalizing s with
  | nil => exact ⟨s, rfl, h, rfl⟩
  | cons e es ih =>
    have hnext := State.nextEvent_cons h
    obtain ⟨v, hrun, hv, hsched, hdraws⟩ := step_takes_event hnext
    obtain ⟨t, hthrough, hrest, hd⟩ := ih v hsched
    exact ⟨t, ⟨_, v, hnext, hrun, hv, hthrough⟩, hrest, hd.trans hdraws⟩

/-- The `n` free events from the `d`-th on. -/
def freeEvents (d n : Nat) : List Event := (List.range n).map fun k => Config.freeEvent (d + k)

theorem freeEvents_succ (d n : Nat) : freeEvents d (n + 1) = Config.freeEvent d :: freeEvents (d + 1) n := by
  simp [freeEvents, List.range_succ_eq_map, Nat.add_assoc, Nat.add_comm 1]

/-- With the schedule run out the free events go on. -/
theorem runsThrough_freeEvents (n : Nat) (s : State) (h : s.schedule = []) :
    ∃ t, Claims.RunsThrough (freeEvents s.draws n) s t ∧ t.schedule = [] ∧ t.draws = s.draws + n := by
  induction n generalizing s with
  | zero => exact ⟨s, rfl, h, rfl⟩
  | succ n ih =>
    have hnext := State.nextEvent_nil h
    obtain ⟨v, hrun, hv, hsched, hdraws⟩ := step_takes_event hnext
    simp only [State.setDraws_schedule, State.setDraws_draws] at hsched hdraws
    obtain ⟨t, hthrough, hrest, hd⟩ := ih v (hsched.trans h)
    rw [hdraws] at hthrough hd
    rw [freeEvents_succ]
    exact ⟨t, ⟨_, v, hnext, hrun, hv, hthrough⟩, hrest, by omega⟩

end Sys2Proof.Machine

open Sys2Proof Sys2Proof.Machine

/-- Settles O23: a changed VF is a register the table gives the instruction, and the six write a flag byte there. -/
theorem vfChangesOnlyAsFlagOrDestination : Obligations.VfChangesOnlyAsFlagOrDestination := by
  intro i s t h
  refine ⟨fun hvf => ?_, ?_⟩
  · have hw := writesReg_of_exec h hvf
    cases i
    case addReg x y | sub x y | shr x y | subn x y | shl x y => exact Or.inl ⟨x, y, by simp⟩
    case drw x y n => exact Or.inl ⟨x, y, by simp⟩
    case ldImm x nn | addImm x nn | rnd x nn =>
      cases (hw : vf = x)
      exact Or.inr (Or.inl ⟨nn, by simp⟩)
    case ldReg x y | orReg x y | andReg x y | xorReg x y =>
      cases (hw : vf = x)
      exact Or.inr (Or.inr (Or.inl ⟨y, by simp⟩))
    case ldVxDt x | ldVxK x =>
      cases (hw : vf = x)
      simp
    case ldRegs x =>
      cases eq_vf_of_vf_le hw
      simp
    all_goals exact absurd hw id
  · rintro x y n (⟨hi, hx⟩ | ⟨rfl, hs⟩)
    · exact vf_zero_or_one_of_flagWriter h hi hx
    · exact vf_zero_or_one_of_drw h hs

/-- Settles O42: taking the event changes the environment, the TICK the two timers. -/
theorem tickCountsDown : Obligations.TickCountsDown := by
  intro s u h
  have taken := State.onlyChanged_nextEvent h
  have hdt : u.dt = s.dt := taken .delay nofun
  have hst : u.st = s.st := taken .sound nofun
  refine ⟨u.tick, step_of_nextEvent h, ?_, ?_, rfl, rfl, ?_⟩
  · rw [State.tick_dt, toNat_countDown, hdt]
  · rw [State.tick_st, toNat_countDown, hst]
  · refine (taken.mono fun p hp => Or.inr (Or.inr hp)).step u.onlyChanged_tick ?_
    exact fun p hp => hp.imp_right Or.inl

/-- Settles O44, by induction on the events and on how many free ones are taken. -/
theorem everyOrderOfEventsIsARun : Obligations.EveryOrderOfEventsIsARun :=
  ⟨runsThrough_schedule, runsThrough_freeEvents⟩

/-- Settles O53: taking the event keeps the parameters, and RESET reads nothing else of the state before it. -/
theorem resetValues : Obligations.ResetValues := by
  intro s u image h himage
  have hcfg : u.cfg = s.cfg := State.onlyChanged_nextEvent h .parameters nofun
  refine ⟨u.resetWith image, step_of_nextEvent h, hcfg ▸ u.hasResetValues_resetWith himage, ?_, ?_⟩
  · rw [u.resetWith_of_fits himage]
    rfl
  · rw [u.resetWith_of_fits himage]
    exact hcfg
end

section
/-! The byte interface, and what a fetch reads after a store (20_memory.md R64, R65, R67, R73). -/

namespace Sys2Proof.Machine

/-! ### One byte written (20_memory.md R64, R65) -/

/-- A write of one byte is a store of a block of length 1. -/
theorem State.memWrite_of_lt (s : State) {a : Nat} (h : a < 4096) (b : Byte) :
    s.memWrite a b = .ok (s.setMem (Memory.writeAll s.cfg.font s.mem a [b])) := if_pos h

theorem State.memWrite_of_ge (s : State) {a : Nat} (h : 4096 ≤ a) (b : Byte) :
    s.memWrite a b = .error (.addressOutOfRange a) := if_neg (Nat.not_lt.2 h)

/-! ### The two bytes of a fetched word (20_memory.md R67) -/

theorem extractLsb'_high_wordOfBytes (hi lo : Byte) : (wordOfBytes hi lo).extractLsb' 8 8 = hi :=
  BitVec.extractLsb'_append_eq_left

theorem extractLsb'_low_wordOfBytes (hi lo : Byte) : (wordOfBytes hi lo).extractLsb' 0 8 = lo :=
  BitVec.extractLsb'_append_eq_right

/-! ### A fetch after a store (20_memory.md R73) -/

/-- A fetch finds whatever the bytes of the block hold: its two bytes are read from memory anew. -/
theorem fetchFinds_of_byteAt {t : State} {base n : Nat} {value : Nat → Nat}
    (h : ∀ k < n, (t.byteAt (base + k)).toNat = value k) : Claims.FetchFinds t base n value := by
  intro w hw
  refine ⟨t.byteAt w.toNat, t.byteAt (w.toNat + 1), (t.setPc w).fetch_ok hw, fun k hk => ⟨fun e => ?_, fun e => ?_⟩⟩ <;>
    rw [e, h k hk]

/-- The byte at an offset inside a stored block. -/
theorem State.byteAt_store_add (s : State) (a : Nat) {bs : List Byte} {k : Nat} (h : k < bs.length) :
    (s.setMem (Memory.writeAll s.cfg.font s.mem a bs)).byteAt (a + k) = bs.getD k 0 := by
  rw [State.byteAt_setMem_writeAll, if_pos (by omega), Nat.add_sub_cancel_left]

/-- The digits that `Fx33` stores, hundreds first, are the decimal digits of the byte (43_index_and_memory.md R193). -/
theorem toNat_getD_bcdDigits (b : Byte) {k : Nat} (h : k < 3) :
    ((bcdDigits b).getD k 0).toNat = Claims.decimalDigit b k := by
  have hb : b.toNat < 256 := b.isLt
  obtain rfl | rfl | rfl : k = 0 ∨ k = 1 ∨ k = 2 := by omega
  · show b.toNat / 100 % 256 = b.toNat / 100 % 10
    omega
  · show b.toNat / 10 % 10 % 256 = b.toNat / 10 % 10
    omega
  · show b.toNat % 10 % 256 = b.toNat / 1 % 10
    omega

end Sys2Proof.Machine

open Sys2Proof.Machine

/-- Settles O45: the fetched word is the two bytes side by side. -/
theorem fetchIsBigEndian : Obligations.FetchIsBigEndian := by
  intro s h
  refine ⟨s.wordAtPc, s.fetch_ok h, ?_, ?_⟩
  · rw [s.memRead_of_lt (by omega), State.wordAtPc, extractLsb'_high_wordOfBytes]
  · rw [s.memRead_of_lt (by omega), State.wordAtPc, extractLsb'_low_wordOfBytes]

/-- Settles O26: a write is a store of a block of one byte. -/
theorem byteInterface : Obligations.ByteInterface := by
  refine fun s a b => ⟨fun ha => ?_, fun ha => ⟨s.memWrite_of_ge ha b, s.memRead_of_ge ha⟩⟩
  have hlt : a < 4096 := by omega
  refine ⟨_, s.memWrite_of_lt hlt b, ?_, fun c hc => ?_, _, s.memRead_of_lt hlt⟩
  · rw [State.memRead_of_lt _ hlt]
    exact congrArg Except.ok (s.byteAt_store_add a (bs := [b]) (k := 0) Nat.one_pos)
  · exact s.memRead_store_of_not_mem (by rw [List.length_singleton]; omega)

/-- Settles O32: each instruction stores its block, and a fetch reads the stored bytes. -/
theorem fetchSeesStores : Obligations.FetchSeesStores := by
  refine ⟨fun x s h => ⟨_, exec_stRegs_ok x s h, fetchFinds_of_byteAt fun k hk => ?_⟩,
    fun x s h => ⟨_, exec_ldB_ok x s h, fetchFinds_of_byteAt fun k hk => ?_⟩⟩
  · have hbyte := s.advance.byteAt_store_add s.dataAddr (bs := s.blockOfRegs x) (k := k) (by simpa using hk)
    rw [State.setI_byteAt]
    exact congrArg BitVec.toNat (hbyte.trans (s.getD_blockOfRegs x (Nat.le_of_lt_succ hk)))
  · have hbyte := s.advance.byteAt_store_add s.dataAddr (bs := bcdDigits (s.reg x)) hk
    exact (congrArg BitVec.toNat hbyte).trans (toNat_getD_bcdDigits (s.reg x) hk)
end

section
/-! The encoding (30_encoding.md): decoder and encoder undo each other (R91, R95), the rows of the opcode map (R94, R95) and
the words of no row (R96 to R100). -/

namespace Sys2Proof.Laws

open Sys2Proof.Claims

variable {w : Word} {i : Instr} {r : OpcodeRow}

/-! ### The decoder undoes the encoder (R95, R102) -/

/-- By the shape of the word: each field read from it is the operand put there, or the key of its row. -/
theorem decodeWord_encodeWord (i : Instr) : decodeWord (encodeWord i) = .ok i := by
  cases i
  case cls | ret => rfl
  case jp | call | ldI | jpV0 => simp [encodeWord, decodeWord, fieldT_nnn, fieldNnn_nnn]
  case seImm | sneImm | ldImm | addImm | rnd => simp [encodeWord, decodeWord, fieldT_xnn, fieldX_xnn, fieldNn_xnn]
  case seReg | sneReg | drw => simp [encodeWord, decodeWord, fieldT_xyn, fieldX_xyn, fieldY_xyn, fieldN_xyn]
  case ldReg | orReg | andReg | xorReg | addReg | sub | shr | subn | shl =>
    simp [encodeWord, decodeWord, decode8, fieldT_xyn, fieldX_xyn, fieldY_xyn, fieldN_xyn]
  case skp | sknp => simp [encodeWord, decodeWord, decodeE, fieldT_xnn, fieldX_xnn, fieldNn_xnn]
  case ldVxDt | ldVxK | ldDtVx | ldStVx | addI | ldF | ldB | stRegs | ldRegs =>
    simp [encodeWord, decodeWord, decodeF, fieldT_xnn, fieldX_xnn, fieldNn_xnn]

/-- The decoder on bytes that begin with those of a word (20_memory.md R67). -/
theorem decodeBytes_bytesOfWord_append (h : decodeWord w = .ok i) (rest : List Byte) :
    decodeBytes (bytesOfWord w ++ rest) = .ok (i, rest) := by
  simp only [bytesOfWord, List.cons_append, List.nil_append, decodeBytes, wordOfBytes_bytesOfWord, h]

/-! ### A word put together again from its fields (R91) -/

theorem append_fieldNnn {t : Nibble} (ht : (fieldT w).toNat = t.toNat) : t ++ fieldNnn w = w := by
  apply BitVec.eq_of_toNat_eq
  rw [toNat_nnn, ← ht, toNat_fieldT, toNat_fieldNnn]
  omega

theorem append_fieldX_append {t : Nibble} {b : Byte} (ht : (fieldT w).toNat = t.toNat)
    (hb : (fieldNn w).toNat = b.toNat) : t ++ fieldX w ++ b = w := by
  apply BitVec.eq_of_toNat_eq
  rw [toNat_xnn, ← ht, ← hb, toNat_fieldT, toNat_fieldX, toNat_fieldNn]
  omega

theorem append_fieldXY_append {t n : Nibble} (ht : (fieldT w).toNat = t.toNat)
    (hn : (fieldN w).toNat = n.toNat) : t ++ fieldX w ++ fieldY w ++ n = w := by
  apply BitVec.eq_of_toNat_eq
  rw [toNat_xyn, ← ht, ← hn, toNat_fieldT, toNat_fieldX, toNat_fieldY, toNat_fieldN]
  omega

/-! ### What the decoder can answer (R94, R96 to R100) -/

/-- An answer that is right for the word: the instruction whose word it is, or an error for a word of the table of R100. -/
def Answers (w : Word) : Except DecodeError Instr → Prop
  | .ok i => encodeWord i = w
  | .error _ => UnrecognisedWord w

theorem answers_decode0 (h : w.toNat / 4096 = 0x0) : Answers w (decode0 w) := by
  unfold decode0
  split
  next hw => exact BitVec.eq_of_toNat_eq hw.symm
  next hw => exact BitVec.eq_of_toNat_eq hw.symm
  next hcls hret => exact Or.inl ⟨h, fun e => hcls (e ▸ rfl), fun e => hret (e ▸ rfl)⟩

/-- Families 5 and 9: an instruction when the low nibble is 0 (R97). -/
theorem answers_ite_fieldN {e : DecodeError} (hok : (fieldN w).toNat = 0 → encodeWord i = w)
    (herr : w.toNat % 16 ≠ 0 → UnrecognisedWord w) : Answers w (if fieldN w = 0 then .ok i else .error e) := by
  split
  next hn => exact hok (congrArg BitVec.toNat hn)
  next hn => exact herr fun h => hn (BitVec.eq_of_toNat_eq ((toNat_fieldN w).trans h))

theorem answers_decode8 (h : (fieldT w).toNat = 0x8) : Answers w (decode8 w) := by
  unfold decode8
  split
  case h_10 =>
    refine Or.inr (Or.inr (Or.inl ⟨toNat_fieldT w ▸ h, ?_⟩))
    simp only [toNat_fieldN, imp_false, List.mem_cons, List.not_mem_nil, or_false] at *
    omega
  all_goals exact append_fieldXY_append h ‹_›

theorem answers_decodeE (h : (fieldT w).toNat = 0xE) : Answers w (decodeE w) := by
  unfold decodeE
  split
  case h_3 =>
    refine Or.inr (Or.inr (Or.inr (Or.inr (Or.inl ⟨toNat_fieldT w ▸ h, ?_⟩))))
    simp only [toNat_fieldNn, imp_false, List.mem_cons, List.not_mem_nil, or_false] at *
    omega
  all_goals exact append_fieldX_append h ‹_›

theorem answers_decodeF (h : (fieldT w).toNat = 0xF) : Answers w (decodeF w) := by
  unfold decodeF
  split
  case h_10 =>
    refine Or.inr (Or.inr (Or.inr (Or.inr (Or.inr ⟨toNat_fieldT w ▸ h, ?_⟩))))
    simp only [toNat_fieldNn, imp_false, List.mem_cons, List.not_mem_nil, or_false] at *
    omega
  all_goals exact append_fieldX_append h ‹_›

/-- Family by family (R93): case `h_k` is family `k`, and the last one is family 0. -/
theorem answers_decodeWord (w : Word) : Answers w (decodeWord w) := by
  unfold decodeWord
  split
  case h_1 h | h_2 h | h_10 h | h_11 h => exact append_fieldNnn h
  case h_3 h | h_4 h | h_6 h | h_7 h | h_12 h => exact append_fieldX_append h rfl
  case h_13 h => exact append_fieldXY_append h rfl
  case h_5 h =>
    exact answers_ite_fieldN (fun hk => append_fieldXY_append h hk) fun hn => Or.inr (Or.inl ⟨toNat_fieldT w ▸ h, hn⟩)
  case h_9 h =>
    exact answers_ite_fieldN (fun hk => append_fieldXY_append h hk) fun hn =>
      Or.inr (Or.inr (Or.inr (Or.inl ⟨toNat_fieldT w ▸ h, hn⟩)))
  case h_8 h => exact answers_decode8 h
  case h_14 h => exact answers_decodeE h
  case h_15 h => exact answers_decodeF h
  case h_16 =>
    apply answers_decode0
    have := w.isLt
    simp only [toNat_fieldT, imp_false] at *
    omega

/-- Decoder and encoder undo each other. -/
theorem decodeWord_eq_ok_iff : decodeWord w = .ok i ↔ encodeWord i = w := by
  refine ⟨fun h => ?_, fun h => h ▸ decodeWord_encodeWord i⟩
  have answers := answers_decodeWord w
  rwa [h] at answers

theorem unrecognisedWord_of_decodeWord {e : DecodeError} (h : decodeWord w = .error e) : UnrecognisedWord w := by
  have answers := answers_decodeWord w
  rwa [h] at answers

/-! ### The rows of the opcode map (R94, R95) -/

/-- Two rows whose patterns agree in the bits that both masks keep are one row. -/
theorem opcodeMap_agree : ∀ r ∈ opcodeMap, ∀ q ∈ opcodeMap,
    r.pattern &&& q.mask = q.pattern &&& r.mask → r = q := by decide

theorem nodup_mnemonic_opcodeMap : (opcodeMap.map OpcodeRow.mnemonic).Nodup := by decide

/-- No row's pattern is a word of the table of R100. -/
theorem not_unrecognisedWord_pattern : ∀ r ∈ opcodeMap, ¬ UnrecognisedWord r.pattern := by
  unfold UnrecognisedWord
  decide

/-- The masks keep the key of each family: all of the word in family 0 (R96), the low nibble in families 5, 8 and 9 (R97, R98),
the low byte in families E and F (R99). -/
theorem mask_keeps_key : ∀ r ∈ opcodeMap, fieldT r.mask = BitVec.allOnes 4 ∧
    (r.pattern.toNat / 4096 = 0x0 → r.mask = BitVec.allOnes 16) ∧
    (r.pattern.toNat / 4096 ∈ [0x5, 0x8, 0x9] → fieldN r.mask = BitVec.allOnes 4) ∧
    (r.pattern.toNat / 4096 ∈ [0xE, 0xF] → fieldNn r.mask = BitVec.allOnes 8) := by decide

/-- A field that the mask keeps. -/
theorem extractLsb'_and_of_allOnes {m : Word} {start len : Nat} (h : m.extractLsb' start len = BitVec.allOnes len) :
    (w &&& m).extractLsb' start len = w.extractLsb' start len := by
  rw [BitVec.extractLsb'_and, h, BitVec.and_allOnes]

/-- A word that selects a row has the row's key, so it is no word of the table of R100. -/
theorem not_unrecognisedWord_of_selects (hr : r ∈ opcodeMap) (h : w &&& r.mask = r.pattern) : ¬ UnrecognisedWord w := by
  obtain ⟨maskT, mask0, maskN, maskNn⟩ := mask_keeps_key r hr
  have family : r.pattern.toNat / 4096 = w.toNat / 4096 := by
    rw [← toNat_fieldT, ← toNat_fieldT, ← h]
    exact congrArg BitVec.toNat (extractLsb'_and_of_allOnes maskT)
  have whole (hf : w.toNat / 4096 = 0x0) : r.pattern = w := by
    rw [← h, mask0 (family.trans hf), BitVec.and_allOnes]
  have nibble (hf : w.toNat / 4096 ∈ [0x5, 0x8, 0x9]) : r.pattern.toNat % 16 = w.toNat % 16 := by
    rw [← toNat_fieldN, ← toNat_fieldN, ← h]
    exact congrArg BitVec.toNat (extractLsb'_and_of_allOnes (maskN (family ▸ hf)))
  have byte (hf : w.toNat / 4096 ∈ [0xE, 0xF]) : r.pattern.toNat % 256 = w.toNat % 256 := by
    rw [← toNat_fieldNn, ← toNat_fieldNn, ← h]
    exact congrArg BitVec.toNat (extractLsb'_and_of_allOnes (maskNn (family ▸ hf)))
  refine mt ?_ (not_unrecognisedWord_pattern r hr)
  unfold UnrecognisedWord
  rw [family]
  refine Or.imp ?_ (Or.imp ?_ (Or.imp ?_ (Or.imp ?_ (Or.imp ?_ ?_)))) <;> rintro ⟨hf, hk⟩
  · exact ⟨hf, (whole hf).symm ▸ hk⟩
  · exact ⟨hf, (nibble (by simp [hf])).symm ▸ hk⟩
  · exact ⟨hf, (nibble (by simp [hf])).symm ▸ hk⟩
  · exact ⟨hf, (nibble (by simp [hf])).symm ▸ hk⟩
  · exact ⟨hf, (byte (by simp [hf])).symm ▸ hk⟩
  · exact ⟨hf, (byte (by simp [hf])).symm ▸ hk⟩

/-- Every instruction's word stands in its row. -/
theorem encodesInRow : ∀ i, EncodesInRow.Statement i
  | .cls => EncodesInRow.cls | .ret => EncodesInRow.ret | .jp nnn => EncodesInRow.jp nnn
  | .call nnn => EncodesInRow.call nnn | .seImm x nn => EncodesInRow.seImm x nn
  | .sneImm x nn => EncodesInRow.sneImm x nn | .seReg x y => EncodesInRow.seReg x y
  | .ldImm x nn => EncodesInRow.ldImm x nn | .addImm x nn => EncodesInRow.addImm x nn
  | .ldReg x y => EncodesInRow.ldReg x y | .orReg x y => EncodesInRow.orReg x y
  | .andReg x y => EncodesInRow.andReg x y | .xorReg x y => EncodesInRow.xorReg x y
  | .addReg x y => EncodesInRow.addReg x y | .sub x y => EncodesInRow.sub x y | .shr x y => EncodesInRow.shr x y
  | .subn x y => EncodesInRow.subn x y | .shl x y => EncodesInRow.shl x y | .sneReg x y => EncodesInRow.sneReg x y
  | .ldI nnn => EncodesInRow.ldI nnn | .jpV0 nnn => EncodesInRow.jpV0 nnn | .rnd x nn => EncodesInRow.rnd x nn
  | .drw x y n => EncodesInRow.drw x y n | .skp x => EncodesInRow.skp x | .sknp x => EncodesInRow.sknp x
  | .ldVxDt x => EncodesInRow.ldVxDt x | .ldVxK x => EncodesInRow.ldVxK x | .ldDtVx x => EncodesInRow.ldDtVx x
  | .ldStVx x => EncodesInRow.ldStVx x | .addI x => EncodesInRow.addI x | .ldF x => EncodesInRow.ldF x
  | .ldB x => EncodesInRow.ldB x | .stRegs x => EncodesInRow.stRegs x | .ldRegs x => EncodesInRow.ldRegs x

/-- A word that decodes selects the row of its instruction. -/
theorem selects_of_decodeWord (h : decodeWord w = .ok i) :
    ∃ r ∈ opcodeMap, r.mnemonic = i.mnemonic ∧ w &&& r.mask = r.pattern :=
  decodeWord_eq_ok_iff.1 h ▸ encodesInRow i

end Sys2Proof.Laws

open Sys2Proof Sys2Proof.Laws

/-- Settles O1: the fields of the word are the operands, and its two bytes side by side are the word. -/
theorem decodeOfEncode : Obligations.DecodeOfEncode := fun i =>
  ⟨decodeWord_encodeWord i, decodeBytes_bytesOfWord_append (decodeWord_encodeWord i)⟩

/-- Settles O2: each family's word is put together again from its key and its fields. -/
theorem encodeOfDecode : Obligations.EncodeOfDecode := fun _ _ => decodeWord_eq_ok_iff.1

/-- Settles O4: two patterns that one word matches agree in the bits that both masks keep, and no two rows do. -/
theorem noTwoRowsOverlap : Obligations.NoTwoRowsOverlap := by
  intro w r q hr hq hwr hwq
  apply opcodeMap_agree r hr q hq
  calc r.pattern &&& q.mask = w &&& r.mask &&& q.mask := by rw [hwr]
    _ = w &&& q.mask &&& r.mask := by ac_rfl
    _ = q.pattern &&& r.mask := by rw [hwq]

/-- Settles O3: a word that selects a row decodes, and then the row is that of its instruction. -/
theorem decoderSelectsTheMatchingRow : Obligations.DecoderSelectsTheMatchingRow := by
  refine fun w r hr => ⟨fun h => ?_, fun ⟨i, hi, hmn⟩ => ?_⟩
  · cases hd : decodeWord w with
    | error e => exact absurd (unrecognisedWord_of_decodeWord hd) (not_unrecognisedWord_of_selects hr h)
    | ok i =>
      obtain ⟨q, hq, hmn, hw⟩ := selects_of_decodeWord hd
      exact ⟨i, rfl, by rw [noTwoRowsOverlap w r q hr hq h hw, hmn]⟩
  · obtain ⟨q, hq, hqi, hw⟩ := selects_of_decodeWord hi
    have hqr : q = r := List.inj_on_of_nodup_map nodup_mnemonic_opcodeMap hq hr (hqi.trans hmn)
    exact hqr ▸ hw

/-- Settles O5: what the decoder rejects is in the table, and what it accepts selects a row, which no word of the table does. -/
theorem rejectedWordsAreThoseOfTheTable : Obligations.RejectedWordsAreThoseOfTheTable := by
  refine fun w => ⟨fun ⟨e, he⟩ => unrecognisedWord_of_decodeWord he, fun h => ?_⟩
  cases hd : decodeWord w with
  | error e => exact ⟨e, rfl⟩
  | ok i =>
    obtain ⟨r, hr, -, hw⟩ := selects_of_decodeWord hd
    exact absurd h (not_unrecognisedWord_of_selects hr hw)

/-- Settles O6: each of the seven is the word of its instruction. -/
theorem wordsWrittenOutDecode : Obligations.WordsWrittenOutDecode := by
  simp only [Obligations.WordsWrittenOutDecode, decodeWord_eq_ok_iff]
  decide
end

section
/-! Fetch, decode, step (40_fetch_decode_step.md R120 to R131): which STEP a model step is, by the word at `PC`, and what a STEP
changes. -/

namespace Sys2Proof.Machine

open Sys2Proof.Claims

variable {s t u : State} {i : Instr} {inp : StepInput} {e : Event} {w : Word}

/-! ### The fetched word (R121) -/

theorem State.fetch_eq_ok_iff : s.fetch = .ok w ↔ s.pc.toNat ≤ 4094 ∧ s.wordAtPc = w := by
  by_cases h : s.pc.toNat ≤ 4094
  · rw [s.fetch_ok h, Except.ok.injEq]
    exact (and_iff_right h).symm
  · rw [s.fetch_error (Nat.lt_of_not_le h)]
    exact iff_of_false nofun fun hw => h hw.1

theorem State.wordAtPc_of_memRead {hi lo : Byte} (hpc : s.pc.toNat ≤ 4094) (hhi : s.memRead s.pc.toNat = .ok hi)
    (hlo : s.memRead (s.pc.toNat + 1) = .ok lo) : s.wordAtPc = wordOfBytes hi lo := by
  rw [s.memRead_of_lt (by omega), Except.ok.injEq] at hhi hlo
  rw [State.wordAtPc, hhi, hlo]

/-! ### Taking the event leaves what the fetch reads -/

theorem State.nextEvent_pc (h : s.nextEvent = (e, u)) : u.pc = s.pc :=
  State.onlyChanged_nextEvent h .pc nofun

theorem State.nextEvent_wordAtPc (h : s.nextEvent = (e, u)) : u.wordAtPc = s.wordAtPc := by
  rw [State.nextEvent_frame h]
  rfl

/-! ### The STEP that a model step is, by the state before the event is taken

Taking the event touches nothing that `stepUnit` asks about, so its laws speak of `s` as well. -/

theorem step_fetchFault (h : NextIsStep s inp u) (hf : s.fault.code = .noFault) (hpc : 4094 < s.pc.toNat) :
    step s = .next ((u.sample inp).takeFault (.addressOutOfRange s.pc.toNat)) := by
  rw [step_of_nextEvent h, State.nextEvent_frame h]
  exact stepUnit_fetchFault hf hpc

theorem step_unrecognised (h : NextIsStep s inp u) (hf : s.fault.code = .noFault) (hpc : s.pc.toNat ≤ 4094)
    {e : DecodeError} (hd : decodeWord s.wordAtPc = .error e) : step s = .next (execUnrecognised (u.sample inp)) := by
  rw [step_of_nextEvent h, State.nextEvent_frame h]
  exact stepUnit_unrecognised hf hpc hd

theorem step_exec (h : NextIsStep s inp u) (hf : s.fault.code = .noFault) (hpc : s.pc.toNat ≤ 4094)
    (hd : decodeWord s.wordAtPc = .ok i) : step s = exec i (u.sample inp) := by
  rw [step_of_nextEvent h, State.nextEvent_frame h]
  exact stepUnit_exec (s := (s.setSchedule u.schedule).setDraws u.draws) hf hpc hd

/-! ### What a STEP changes -/

theorem State.onlyChanged_setUnk (s : State) (b : Bool) : OnlyChanged (· = .unk) s (s.setUnk b) := by
  intro p hp
  cases p <;> simp_all [Piece.same]

theorem State.onlyChanged_setInput (s : State) (inp : StepInput) : OnlyChanged ownFields s (s.setInput inp) := by
  intro p hp
  cases p <;> simp_all [Piece.same, ownFields]

/-- What every STEP changes before it fetches: the event is taken, the inputs are sampled (10_state.md R35), `unk` drops
(R129). -/
theorem onlyChanged_sample_of_nextIsStep (h : NextIsStep s inp u) :
    OnlyChanged (fun p => p = .unk ∨ ownFields p) s (u.sample inp) := by
  have taken : OnlyChanged (fun p => p = .unk ∨ ownFields p) s u :=
    (State.onlyChanged_nextEvent h).mono fun _ hp => Or.inr (Or.inl hp)
  exact (taken.step (u.onlyChanged_setInput inp) fun _ hp => Or.inr hp).stepOne (State.onlyChanged_setUnk _ _) (Or.inl rfl)

theorem State.onlyChanged_execUnrecognised (s : State) :
    OnlyChanged (fun p => p = .pc ∨ p = .unk) s (execUnrecognised s) :=
  (s.onlyChanged_advance.mono fun _ hp => Or.inl hp).stepOne (State.onlyChanged_setUnk _ _) (Or.inr rfl)

/-- Beside `PC`, FAULT, `unk` and the model's own fields, a STEP changes only what the table lets the fetched instruction
write (10_state.md R43). -/
theorem writes_of_step {p : Piece} (h : NextIsStep s inp u) (hs : step s = .next t)
    (hp : ¬ (p = .pc ∨ p = .fault ∨ p = .unk ∨ ownFields p)) (changed : ¬ p.same s t) :
    ∃ i, s.fetch = .ok (encodeWord i) ∧ i.writes (u.sample inp) p := by
  obtain ⟨hpc, hfault, hunk, hown⟩ : p ≠ .pc ∧ p ≠ .fault ∧ p ≠ .unk ∧ ¬ ownFields p := by simpa only [not_or] using hp
  have sampled : p.same s (u.sample inp) := onlyChanged_sample_of_nextIsStep h p (not_or.2 ⟨hunk, hown⟩)
  have mem_of_onlyChanged {ch : Piece → Prop} (hc : OnlyChanged ch (u.sample inp) t) : ch p :=
    by_contra fun hn => changed (Piece.same_trans sampled (hc p hn))
  have hrun : stepUnit inp u = .next t := (step_of_nextEvent h).symm.trans hs
  obtain ⟨-, ht⟩ | ⟨-, -, ht⟩ | ⟨-, -, -, ht⟩ | ⟨-, hfetch, i, hd, ht⟩ := stepUnit_cases hrun
  · cases ht
    exact absurd sampled changed
  · cases ht
    exact absurd (mem_of_onlyChanged (State.onlyChanged_takeFault _ _)) hfault
  · cases ht
    exact absurd (mem_of_onlyChanged (State.onlyChanged_execUnrecognised _)) (not_or.2 ⟨hpc, hunk⟩)
  · rw [State.nextEvent_pc h] at hfetch
    rw [State.nextEvent_wordAtPc h] at hd
    refine ⟨i, State.fetch_eq_ok_iff.2 ⟨hfetch, (Laws.decodeWord_eq_ok_iff.1 hd).symm⟩, ?_⟩
    obtain hc | hc := exec_onlyChanged ht.symm
    · exact absurd (mem_of_onlyChanged hc).1 hfault
    · exact (mem_of_onlyChanged hc).1

/-! ### The writers of the timers (10_state.md R43) -/

theorem eq_ldDtVx_of_writes_delay (h : i.writes s .delay) : ∃ x, i = .ldDtVx x := by
  cases i
  case ldDtVx x => exact ⟨x, rfl⟩
  all_goals exact absurd h id

theorem eq_ldStVx_of_writes_sound (h : i.writes s .sound) : ∃ x, i = .ldStVx x := by
  cases i
  case ldStVx x => exact ⟨x, rfl⟩
  all_goals exact absurd h id

/-! ### A placed word -/

theorem decodeWord_of_decodeTableWord {nbits n : Nat} (h : decodeTableWord nbits n = some i) :
    decodeWord (tableWord nbits n) = .ok i := by
  cases hd : decodeWord (tableWord nbits n) with
  | ok j =>
    rw [decodeTableWord, ← List.append_nil (bytesOfWord _), Laws.decodeBytes_bytesOfWord_append hd] at h
    exact congrArg Except.ok (Option.some.inj h)
  | error e => simp [decodeTableWord, bytesOfWord, decodeBytes, Laws.wordOfBytes_bytesOfWord, hd] at h

/-- The two bytes of a word, stored at `PC`, are the word at `PC`. -/
theorem State.wordAtPc_store (s : State) (w : Word) :
    (s.setMem (Memory.writeAll s.cfg.font s.mem s.pc.toNat (bytesOfWord w))).wordAtPc = w := by
  have hhi := s.byteAt_store_add s.pc.toNat (bs := bytesOfWord w) (k := 0) Nat.two_pos
  have hlo := s.byteAt_store_add s.pc.toNat (bs := bytesOfWord w) (k := 1) Nat.one_lt_two
  exact (congrArg₂ wordOfBytes hhi hlo).trans (Laws.wordOfBytes_bytesOfWord w)

theorem State.stepNext_fault (s : State) : s.stepNext.fault = s.fault := by
  rw [s.stepNext_spec.2]
  rfl

theorem State.stepNext_pc (s : State) : s.stepNext.pc = s.pc := by
  rw [s.stepNext_spec.2]
  rfl

theorem State.stepNext_wordAtPc (s : State) : s.stepNext.wordAtPc = s.wordAtPc := by
  rw [s.stepNext_spec.2]
  rfl

theorem State.nextIsStep_stepNext (s : State) : ∃ inp u, NextIsStep s.stepNext inp u := by
  obtain ⟨⟨inp, rest, h⟩, -⟩ := s.stepNext_spec
  exact ⟨inp, _, State.nextEvent_cons h⟩

theorem State.placeWord_fault_code (s : State) (w : Word) : (s.placeWord w).fault.code = .noFault := by
  rw [State.placeWord, State.stepNext_fault, State.setFault_fault]
  split
  next h => exact h
  next => rfl

theorem State.placeWord_pc_le (s : State) (w : Word) : (s.placeWord w).pc.toNat ≤ 4094 := by
  rw [State.placeWord, State.stepNext_pc, State.setFault_pc, State.setMem_pc, State.setPc_pc]
  split
  next => decide
  next h => exact Nat.le_of_not_lt h

theorem State.placeWord_wordAtPc (s : State) (w : Word) : (s.placeWord w).wordAtPc = w := by
  rw [State.placeWord, State.stepNext_wordAtPc]
  exact (s.setPc _).wordAtPc_store w

end Sys2Proof.Machine

open Sys2Proof Sys2Proof.Machine Sys2Proof.Laws

/-- Settles O43: a timer is none of the pieces every STEP may change, and the table names one writer of each. -/
theorem timersChangeOnlyByTickOrTheirInstruction : Obligations.TimersChangeOnlyByTickOrTheirInstruction := by
  refine fun s t inp u h hs => ⟨fun hdt => ?_, fun hst => ?_⟩
  · obtain ⟨i, hfetch, hw⟩ := writes_of_step (p := .delay) h hs (by simp [Claims.ownFields]) hdt
    obtain ⟨x, rfl⟩ := eq_ldDtVx_of_writes_delay hw
    exact ⟨x, hfetch⟩
  · obtain ⟨i, hfetch, hw⟩ := writes_of_step (p := .sound) h hs (by simp [Claims.ownFields]) hst
    obtain ⟨x, rfl⟩ := eq_ldStVx_of_writes_sound hw
    exact ⟨x, hfetch⟩

/-- Settles O47: the decoder rejects every word of the table, so the step is the no-op. -/
theorem unrecognisedWordIsANoOp : Obligations.UnrecognisedWordIsANoOp := by
  intro s inp u w h hf hfetch hw
  obtain ⟨hpc, rfl⟩ := State.fetch_eq_ok_iff.1 hfetch
  obtain ⟨e, hd⟩ := (rejectedWordsAreThoseOfTheTable _).2 hw
  have sampled := onlyChanged_sample_of_nextIsStep h
  refine ⟨_, step_unrecognised h hf hpc hd, ?_, rfl, ?_⟩
  · show u.pc + 2 = s.pc + 2
    rw [State.nextEvent_pc h]
  · refine (sampled.mono fun p hp => Or.inr hp).step (State.onlyChanged_execUnrecognised _) ?_
    exact fun p hp => hp.imp_right Or.inl

/-- Settles O48: the fault is entered on the sampled state, and a 16-bit `PC` fits the 17-bit info. -/
theorem fetchPastTheEndFaults : Obligations.FetchPastTheEndFaults := by
  intro s inp u h hf hpc
  have sampled := onlyChanged_sample_of_nextIsStep h
  refine ⟨_, step_fetchFault h hf hpc, rfl, ?_, ?_⟩
  · exact Nat.mod_eq_of_lt (s.pc.isLt.trans (by decide))
  · exact (sampled.mono fun p hp => Or.inr hp).stepOne (State.onlyChanged_takeFault _ _) (Or.inl rfl)

/-- Settles O50: the commit answers a next state whether or not the instruction faults, and so does every event. -/
theorem everyStepAnswersANextState : Obligations.EveryStepAnswersANextState :=
  ⟨exec_isNext, fun s => runEvent_isNext s.nextEvent.1 s.nextEvent.2⟩

/-- Settles O46: the two bytes side by side are the word at `PC`. -/
theorem stepRunsTheDecodedInstruction : Obligations.StepRunsTheDecodedInstruction := by
  intro s inp u i hi lo h hf hpc hhi hlo hd
  rw [← State.wordAtPc_of_memRead hpc hhi hlo] at hd
  exact step_exec h hf hpc hd

/-- Settles O52: the placed state is not halted, its `PC` can be fetched from, the word there is the placed one, and the next
event is a STEP. -/
theorem placedWordRunsNext : Obligations.PlacedWordRunsNext := by
  intro s n i hi
  obtain ⟨inp, u, h⟩ : ∃ inp u, Claims.NextIsStep (s.withFetchWord 16 n) inp u := State.nextIsStep_stepNext _
  have hd : decodeWord (s.withFetchWord 16 n).wordAtPc = .ok i :=
    (congrArg decodeWord (s.placeWord_wordAtPc _)).trans (decodeWord_of_decodeTableWord hi)
  exact ⟨inp, u, h, step_exec h (s.placeWord_fault_code _) (s.placeWord_pc_le _) hd⟩
end

section
/-! Control transfer (41_control_transfer.md R140 to R148), and the machine at rest (92_eei_decisions.md D22). -/

namespace Sys2Proof.Machine

open Sys2Proof.Claims

variable {s u : State} {i : Instr} {inp : StepInput}

/-! ### Jumps (R140, R143) -/

/-- An instruction whose only update is a new `PC`. -/
theorem completes_of_exec_setPc {w : Word} {post : State → Prop} (h : exec i s = .next (s.setPc w))
    (hpost : post (s.setPc w)) : Completes i s (fun p => p = .pc) post :=
  ⟨_, h, hpost, s.onlyChanged_setPc w⟩

theorem exec_jp (nnn : Addr) (s : State) : exec (.jp nnn) s = .next (s.setPc (zextAddr nnn)) := rfl

theorem exec_jpV0 (nnn : Addr) (s : State) :
    exec (.jpV0 nnn) s = .next (s.setPc (zextAddr nnn + zextByte (s.reg 0))) := rfl

/-! ### Skips (R144 to R147) -/

/-- A skip on `P` adds its 2 to the 2 of the advance when `P` holds (00_scope.md R11). -/
theorem skips_of_exec_skipIf {P : Prop} [Decidable P] (h : exec i s = .next (s.advance.skipIf (decide P))) :
    Skips i s P := by
  refine ⟨_, h, ⟨fun hP => ?_, fun hP => ?_⟩, s.onlyChanged_advance.trans (State.onlyChanged_skipIf _ _)⟩
  · rw [State.skipIf_pc, decide_eq_true hP, if_pos rfl, State.advance_pc, BitVec.add_assoc]
    rfl
  · rw [State.skipIf_pc, decide_eq_false hP, if_neg Bool.false_ne_true, State.advance_pc]

/-! ### Calls and returns (R141, R142) -/

theorem State.onlyChanged_setStack_setPc (s : State) (l : List Word) (w : Word) :
    OnlyChanged (fun p => p = .pc ∨ p = .stack) s ((s.setStack l).setPc w) :=
  ((s.onlyChanged_setStack l).mono fun _ hp => Or.inr hp).stepOne (State.onlyChanged_setPc _ w) (Or.inl rfl)

/-! ### Rest (92_eei_decisions.md D22) -/

theorem State.atRest_iff : s.atRest = true ↔ s.fault.code = .noFault ∧ s.pc.toNat ≤ 4094 ∧
    decodeWord s.wordAtPc = .ok (.jp (s.pc.setWidth 12)) := by
  by_cases hpc : s.pc.toNat ≤ 4094
  · have hle : s.pc.toNat ≤ 0xFFF := hpc.trans (by decide)
    simp [State.atRest, State.safe, State.nextWord, s.fetch_ok hpc, hpc, hle]
  · simp [State.atRest, State.nextWord, s.fetch_error (Nat.lt_of_not_le hpc), hpc]

/-- An address below 4096 is its own low 12 bits. -/
theorem zextAddr_setWidth_of_lt {w : Word} (h : w.toNat < 4096) : zextAddr (w.setWidth 12) = w := by
  apply BitVec.eq_of_toNat_eq
  rw [toNat_zextAddr, BitVec.toNat_setWidth, Nat.mod_eq_of_lt h]

/-- A jump to the instruction's own address is standing still. -/
theorem exec_jp_self {nnn : Addr} (h : zextAddr nnn = s.pc) : exec (.jp nnn) s = .next s := by
  rw [exec_jp, h]
  rfl

/-- Neither the event taken nor the inputs sampled are anything that rest asks about. -/
theorem State.atRest_sample_of_nextIsStep (h : NextIsStep s inp u) : (u.sample inp).atRest = s.atRest := by
  rw [State.nextEvent_frame h]
  rfl

/-- A STEP at rest samples its inputs, and that is all. -/
theorem step_of_atRest (hrest : s.atRest = true) (h : NextIsStep s inp u) : step s = .next (u.sample inp) := by
  obtain ⟨hf, hpc, hd⟩ := State.atRest_iff.1 hrest
  have target : zextAddr (s.pc.setWidth 12) = (u.sample inp).pc := by
    rw [zextAddr_setWidth_of_lt (by omega), State.sample_pc, State.nextEvent_pc h]
  exact (step_exec h hf hpc hd).trans (exec_jp_self target)

end Sys2Proof.Machine

open Sys2Proof Sys2Proof.Machine Sys2Proof.Laws

/-- Settles O7: the jump sets `PC` to the zero-extended field. -/
theorem jumpLoadsTarget : Obligations.JumpLoadsTarget := fun nnn =>
  ⟨decodeWord_encodeWord (.jp nnn), fun s => completes_of_exec_setPc (exec_jp nnn s) (toNat_zextAddr nnn)⟩

/-- Settles O11: the sum is at most 0xFFF + 0xFF, so it does not wrap. -/
theorem jumpWithOffsetAddsV0 : Obligations.JumpWithOffsetAddsV0 := fun nnn =>
  ⟨decodeWord_encodeWord (.jpV0 nnn), fun s =>
    completes_of_exec_setPc (exec_jpV0 nnn s) (toNat_zextAddr_add_zextByte nnn (s.reg 0))⟩

/-- Settles O8: with room on the stack the push succeeds. -/
theorem callPushesReturnAddress : Obligations.CallPushesReturnAddress := fun nnn s hroom =>
  ⟨_, exec_call_ok nnn s hroom, ⟨toNat_zextAddr nnn, rfl⟩, s.onlyChanged_setStack_setPc _ _⟩

/-- Settles O9: with an entry on the stack the pop succeeds. -/
theorem returnPopsLastEntry : Obligations.ReturnPopsLastEntry := fun s rest r hs =>
  ⟨_, exec_ret_ok s hs, ⟨rfl, rfl⟩, s.onlyChanged_setStack_setPc rest r⟩

/-- Settles O14: the return pops the entry that the call pushed. -/
theorem subroutineRoundTrip : Obligations.SubroutineRoundTrip := by
  intro nnn s hroom
  obtain ⟨t, hcall, ⟨-, pushed⟩, -⟩ := callPushesReturnAddress nnn s hroom
  refine ⟨t, hcall, fun u hu => ?_⟩
  obtain ⟨r, hret, hpopped, -⟩ := returnPopsLastEntry u s.stack (s.pc + 2) (hu.trans pushed)
  exact ⟨r, hret, hpopped⟩

/-- Settles O12: each of the two is a skip on its condition. -/
theorem skipsOnImmediate : Obligations.SkipsOnImmediate := fun x nn =>
  ⟨decodeWord_encodeWord (.seImm x nn), decodeWord_encodeWord (.sneImm x nn), fun _ =>
    ⟨skips_of_exec_skipIf rfl, skips_of_exec_skipIf rfl⟩⟩

/-- Settles O13: each of the two is a skip on its condition. -/
theorem skipsOnRegisters : Obligations.SkipsOnRegisters := fun x y =>
  ⟨decodeWord_encodeWord (.seReg x y), decodeWord_encodeWord (.sneReg x y), fun _ =>
    ⟨skips_of_exec_skipIf rfl, skips_of_exec_skipIf rfl⟩⟩

/-- Settles O15: the STEP jumps to where it stands, so it only samples, which changes nothing that rest asks about. -/
theorem restIsStable : Obligations.RestIsStable := by
  intro s inp u hrest h
  exact ⟨_, step_of_atRest hrest h, onlyChanged_sample_of_nextIsStep h,
    (State.atRest_sample_of_nextIsStep h).trans hrest⟩
end

section
/-! Register load, arithmetic, logic, shift and random instructions (42_register_alu.md R160 to R172). The operands are read from
the state before the instruction, so each of the five flag writers has one law for every `x` and `y`, VF included. -/

namespace Sys2Proof.Machine

open Sys2Proof.Claims

variable {s : State} {i : Instr} {x : Nibble}

/-! ### The flags as numbers (R166 to R170) -/

theorem toNat_flagByte (c : Bool) : (flagByte c).toNat = if c then 1 else 0 := by
  cases c <;> rfl

theorem toNat_carryFlag (a b : Byte) : (carryFlag a b).toNat = if 255 < a.toNat + b.toNat then 1 else 0 := by
  simp only [carryFlag, toNat_flagByte, decide_eq_true_eq]

theorem toNat_noBorrowFlag (minuend subtrahend : Byte) :
    (noBorrowFlag minuend subtrahend).toNat = if minuend.toNat < subtrahend.toNat then 0 else 1 := by
  simp only [noBorrowFlag, toNat_flagByte, decide_eq_true_eq, ← Nat.not_lt, ite_not]

theorem toNat_shiftedOutRight (b : Byte) : (shiftedOutRight b).toNat = b.toNat % 2 := by
  rw [shiftedOutRight, BitVec.toNat_and]
  exact Nat.and_one_is_mod b.toNat

theorem toNat_shiftedOutLeft (b : Byte) : (shiftedOutLeft b).toNat = b.toNat / 128 := by
  rw [shiftedOutLeft, BitVec.toNat_ushiftRight, Nat.shiftRight_eq_div_pow]

/-! ### The results as numbers (R167 to R170) -/

theorem toNat_byte_sub (a b : Byte) : (a - b).toNat = (a.toNat + 256 - b.toNat) % 256 := by
  have := b.isLt
  rw [BitVec.toNat_sub]
  omega

theorem toNat_byte_shiftRight_one (b : Byte) : (b >>> 1).toNat = b.toNat / 2 := by
  rw [BitVec.toNat_ushiftRight, Nat.shiftRight_eq_div_pow, pow_one]

theorem toNat_byte_shiftLeft_one (b : Byte) : (b <<< 1).toNat = b.toNat * 2 % 256 := by
  rw [BitVec.toNat_shiftLeft, Nat.shiftLeft_eq, pow_one]

/-! ### One destination, no flag (R160 to R165, R171) -/

/-- An instruction whose only update beside the advance is its destination register. -/
theorem writesReg_of_exec_setReg {b : Byte} {result : Byte → Prop} (h : exec i s = .next (s.advance.setReg x b))
    (hb : result b) : WritesReg i s x result := by
  refine ⟨_, h, ⟨?_, rfl⟩, ?_⟩
  · rwa [State.reg_setReg_self]
  · have advanced : OnlyChanged (fun p => p = .pc ∨ p = .reg x) s s.advance :=
      s.onlyChanged_advance.mono fun _ hp => Or.inl hp
    exact advanced.stepOne (s.advance.onlyChanged_setReg x b) (Or.inr rfl)

/-! ### A destination and VF (R166 to R170, R172) -/

/-- VF is written before the destination (decision D13), so a destination VF ends with the result. -/
theorem writesFlagAndReg_of_exec_writeFlagThenResult {f b : Byte} {flag result : Nat}
    (h : exec i s = .next (s.advance.writeFlagThenResult x f b)) (hf : f.toNat = flag) (hb : b.toNat = result) :
    WritesFlagAndReg i s x flag result := by
  refine ⟨_, h, ⟨?_, fun hx => ?_, rfl⟩, ?_⟩
  · rw [State.reg_writeFlagThenResult, if_pos rfl, hb]
  · rw [State.vf_writeFlagThenResult _ hx, hf]
  · have advanced : OnlyChanged (fun p => p = .pc ∨ p = .reg x ∨ p = .reg vf) s s.advance :=
      s.onlyChanged_advance.mono fun _ hp => Or.inl hp
    have flagged := advanced.stepOne (s.advance.onlyChanged_setReg vf f) (Or.inr (Or.inr rfl))
    exact flagged.stepOne (State.onlyChanged_setReg _ x b) (Or.inr (Or.inl rfl))

theorem writesFlagAndReg_addReg (x y : Nibble) (s : State) :
    WritesFlagAndReg (.addReg x y) s x (if 255 < (s.reg x).toNat + (s.reg y).toNat then 1 else 0)
      (((s.reg x).toNat + (s.reg y).toNat) % 256) :=
  writesFlagAndReg_of_exec_writeFlagThenResult rfl (toNat_carryFlag _ _) (BitVec.toNat_add _ _)

theorem writesFlagAndReg_sub (x y : Nibble) (s : State) :
    WritesFlagAndReg (.sub x y) s x (if (s.reg x).toNat < (s.reg y).toNat then 0 else 1)
      (((s.reg x).toNat + 256 - (s.reg y).toNat) % 256) :=
  writesFlagAndReg_of_exec_writeFlagThenResult rfl (toNat_noBorrowFlag _ _) (toNat_byte_sub _ _)

theorem writesFlagAndReg_subn (x y : Nibble) (s : State) :
    WritesFlagAndReg (.subn x y) s x (if (s.reg y).toNat < (s.reg x).toNat then 0 else 1)
      (((s.reg y).toNat + 256 - (s.reg x).toNat) % 256) :=
  writesFlagAndReg_of_exec_writeFlagThenResult rfl (toNat_noBorrowFlag _ _) (toNat_byte_sub _ _)

theorem writesFlagAndReg_shr (x y : Nibble) (s : State) :
    WritesFlagAndReg (.shr x y) s x ((s.reg y).toNat % 2) ((s.reg y).toNat / 2) :=
  writesFlagAndReg_of_exec_writeFlagThenResult rfl (toNat_shiftedOutRight _) (toNat_byte_shiftRight_one _)

theorem writesFlagAndReg_shl (x y : Nibble) (s : State) :
    WritesFlagAndReg (.shl x y) s x ((s.reg y).toNat / 128) ((s.reg y).toNat * 2 % 256) :=
  writesFlagAndReg_of_exec_writeFlagThenResult rfl (toNat_shiftedOutLeft _) (toNat_byte_shiftLeft_one _)

end Sys2Proof.Machine

open Sys2Proof Sys2Proof.Machine Sys2Proof.Laws

/-- Settles O18: the addition's law for every `x` and `y` holds for those other than F. -/
theorem addSetsCarry : Obligations.AddSetsCarry := fun x y =>
  ⟨decodeWord_encodeWord (.addReg x y), fun s _ _ => writesFlagAndReg_addReg x y s⟩

/-- Settles O19: the laws of the two subtractions for every `x` and `y` hold for those other than F. -/
theorem subtractSetsNoBorrow : Obligations.SubtractSetsNoBorrow := fun x y =>
  ⟨decodeWord_encodeWord (.sub x y), decodeWord_encodeWord (.subn x y), fun s _ _ =>
    ⟨writesFlagAndReg_sub x y s, writesFlagAndReg_subn x y s⟩⟩

/-- Settles O20: the laws of the two shifts for every `x` and `y` hold for those other than F. -/
theorem shiftsTakeVy : Obligations.ShiftsTakeVy := fun x y =>
  ⟨decodeWord_encodeWord (.shr x y), decodeWord_encodeWord (.shl x y), fun s _ _ =>
    ⟨writesFlagAndReg_shr x y s, writesFlagAndReg_shl x y s⟩⟩

/-- Settles O21: the laws of the five hold for every `x` and `y`, so where one of them is F. -/
theorem flagWritersWithVf : Obligations.FlagWritersWithVf := fun x y s _ =>
  ⟨writesFlagAndReg_addReg x y s, writesFlagAndReg_sub x y s, writesFlagAndReg_subn x y s, writesFlagAndReg_shr x y s,
    writesFlagAndReg_shl x y s⟩

/-- Settles O16: each of the three writes its destination register and no flag. -/
theorem loadAddCopy : Obligations.LoadAddCopy :=
  ⟨fun x nn => ⟨decodeWord_encodeWord (.ldImm x nn), decodeWord_encodeWord (.addImm x nn), fun _ =>
      ⟨writesReg_of_exec_setReg rfl rfl, writesReg_of_exec_setReg rfl (BitVec.toNat_add _ _)⟩⟩,
    fun x y => ⟨decodeWord_encodeWord (.ldReg x y), fun _ => writesReg_of_exec_setReg rfl rfl⟩⟩

/-- Settles O17: each of the three writes its destination register and no flag, and works bit by bit. -/
theorem logicBitByBit : Obligations.LogicBitByBit := fun x y =>
  ⟨decodeWord_encodeWord (.orReg x y), decodeWord_encodeWord (.andReg x y), decodeWord_encodeWord (.xorReg x y), fun _ =>
    ⟨writesReg_of_exec_setReg rfl fun _ _ => BitVec.getLsbD_or, writesReg_of_exec_setReg rfl fun _ _ => BitVec.getLsbD_and,
      writesReg_of_exec_setReg rfl fun _ _ => BitVec.getLsbD_xor⟩⟩

/-- Settles O22: the destination is the sampled byte and the mask, bit by bit. -/
theorem randomIsMasked : Obligations.RandomIsMasked := fun _ _ _ =>
  writesReg_of_exec_setReg rfl fun _ _ => BitVec.getLsbD_and
end

section
/-! Address register and memory instructions (43_index_and_memory.md R190 to R197). The blocks that they store and load have laws
of their own; where a block does not lie in memory, one law serves all four instructions, which answer the same fault. -/

namespace Sys2Proof.Machine

open Sys2Proof.Claims

variable {s : State} {i : Instr}

/-- The advance begins the chain of updates of an instruction that may change `PC`. -/
theorem OnlyChanged.advance {ch : Piece → Prop} (hpc : ch .pc) : OnlyChanged ch s s.advance :=
  (OnlyChanged.refl ch s).stepOne s.onlyChanged_advance hpc

/-! ### The address register (R190 to R192) -/

theorem toNat_zextByte (b : Byte) : (zextByte b).toNat = b.toNat :=
  BitVec.toNat_setWidth_of_le (by decide)

/-- The highest glyph address is 5 * 255, so the 16 bits hold it. -/
theorem toNat_glyphAddr (b : Byte) : (glyphAddr b).toNat = 5 * b.toNat := by
  rw [glyphAddr, BitVec.toNat_ofNat]
  omega

/-- An instruction whose only update beside the advance is a new `I`. -/
theorem completes_of_exec_setI {w : Word} {n : Nat} (h : exec i s = .next (s.advance.setI w)) (hw : w.toNat = n) :
    Completes i s (fun p => p = .pc ∨ p = .index) fun t => t.i.toNat = n ∧ t.pc = s.pc + 2 :=
  ⟨_, h, ⟨hw, rfl⟩, (OnlyChanged.advance (Or.inl rfl)).stepOne (s.advance.onlyChanged_setI w) (Or.inr rfl)⟩

/-! ### Blocks of memory and of registers (R193 to R195) -/

theorem State.toNat_pastBlock (s : State) (x : Nibble) : (s.pastBlock x).toNat = (s.i.toNat + x.toNat + 1) % 65536 := by
  rw [State.pastBlock, BitVec.toNat_add, BitVec.toNat_add, BitVec.toNat_setWidth_of_le (by decide)]
  exact Nat.mod_add_mod _ _ 1

/-- A read at an offset inside a stored block. -/
theorem State.memRead_store_add (s : State) {a k : Nat} {bs : List Byte} (h : k < bs.length) (hmem : a + k ≤ 4095) :
    (s.setMem (Memory.writeAll s.cfg.font s.mem a bs)).memRead (a + k) = .ok (bs.getD k 0) := by
  rw [State.memRead_of_lt _ (Nat.lt_succ_of_le hmem), s.byteAt_store_add a h]

/-- The bytes a store of a block changes, by their offset in the block. -/
theorem State.onlyChanged_store_add (s : State) (a : Nat) (bs : List Byte) :
    OnlyChanged (fun p => ∃ k, k < bs.length ∧ p = .memByte (a + k)) s
      (s.setMem (Memory.writeAll s.cfg.font s.mem a bs)) := by
  refine (s.onlyChanged_store a bs).mono ?_
  rintro _ ⟨b, ⟨hab, hb⟩, rfl⟩
  exact ⟨b - a, by omega, by rw [Nat.add_sub_cancel' hab]⟩

theorem State.getD_bytesAtI (s : State) {n k : Nat} (h : k < n) : (s.bytesAtI n).getD k 0 = s.byteAt (s.dataAddr + k) := by
  simp [State.bytesAtI, List.getD_eq_getElem?_getD, h]

theorem State.loadRegsFrom_pc (s : State) (k : Nat) (bs : List Byte) : (s.loadRegsFrom k bs).pc = s.pc := by
  obtain ⟨w, hw⟩ := s.loadRegsFrom_frame bs k
  rw [hw]

/-- A register of a loaded block holds the byte that lies at its number from `I`. -/
theorem State.reg_loadRegsFrom_bytesAtI (s u : State) {x k : Nibble} (hk : k ≤ x) :
    (u.loadRegsFrom 0 (s.bytesAtI (x.toNat + 1))).reg k = s.byteAt (s.dataAddr + k.toNat) := by
  have hkx : k.toNat < x.toNat + 1 := Nat.lt_succ_of_le hk
  rw [State.reg_loadRegsFrom _ u 0 k (by rw [State.length_bytesAtI]; omega), State.length_bytesAtI,
    if_pos (by omega), Nat.sub_zero, s.getD_bytesAtI hkx]

/-! ### The fault of a data access (R196, R251) -/

/-- The info is the lowest address out of range: `I` itself where that is above memory, else the first byte past memory. -/
theorem faults_of_exec_takeFault
    (h : exec i s = .next (s.takeFault (.addressOutOfRange (max s.dataAddr 4096)))) :
    Faults i s .addressOutOfRange (if s.dataAddr ≤ 4095 then 4096 else s.dataAddr) := by
  refine ⟨_, h, ⟨rfl, ?_⟩, s.onlyChanged_takeFault _⟩
  have hI : s.dataAddr < 65536 := s.i.isLt
  show max s.dataAddr 4096 % 2 ^ 17 = _
  split <;> omega

end Sys2Proof.Machine

open Sys2Proof Sys2Proof.Machine Sys2Proof.Laws

/-- Settles O24: each of the two loads `I` with a value that 16 bits hold. -/
theorem addressRegisterLoads : Obligations.AddressRegisterLoads :=
  ⟨fun nnn => ⟨decodeWord_encodeWord (.ldI nnn), fun _ => completes_of_exec_setI rfl (toNat_zextAddr nnn)⟩,
    fun x => ⟨decodeWord_encodeWord (.ldF x), fun s => completes_of_exec_setI rfl (toNat_glyphAddr (s.reg x))⟩⟩

/-- Settles O25: the sum is that of 16-bit words. -/
theorem addToAddressRegisterWraps : Obligations.AddToAddressRegisterWraps := by
  intro x s
  have hsum : (s.i + zextByte (s.reg x)).toNat = (s.i.toNat + (s.reg x).toNat) % 65536 := by
    rw [BitVec.toNat_add, toNat_zextByte]
  exact completes_of_exec_setI rfl hsum

/-- Settles O27: the three digits are stored as a block. -/
theorem decimalDigitsStored : Obligations.DecimalDigitsStored := by
  intro x s hmem
  have digit (k : Nat) (hk : k < 3) :=
    s.advance.memRead_store_add (a := s.dataAddr) (bs := bcdDigits (s.reg x)) hk (by omega)
  refine ⟨_, exec_ldB_ok x s hmem, ⟨digit 0 (by decide), digit 1 (by decide), digit 2 (by decide), rfl⟩, ?_⟩
  exact (OnlyChanged.advance (Or.inl rfl)).step (s.advance.onlyChanged_store_add _ _) fun _ hp => Or.inr hp

/-- Settles O28: the registers are stored as a block, in their order. -/
theorem registersStored : Obligations.RegistersStored := by
  intro x s hmem
  refine ⟨_, exec_stRegs_ok x s hmem, ⟨fun k hk => ?_, s.toNat_pastBlock x, rfl⟩, ?_⟩
  · have hkx : k.toNat ≤ x.toNat := hk
    have hbyte : (s.blockOfRegs x).getD k.toNat 0 = s.reg k := by
      rw [s.getD_blockOfRegs x hkx, BitVec.ofNat_toNat, BitVec.setWidth_eq]
    rw [← hbyte]
    exact s.advance.memRead_store_add (by rw [State.length_blockOfRegs]; omega) (by omega)
  · refine OnlyChanged.stepOne ?_ (State.onlyChanged_setI _ _) (Or.inr (Or.inl rfl))
    refine (OnlyChanged.advance (Or.inl rfl)).step (s.advance.onlyChanged_store_add _ _) ?_
    rintro _ ⟨k, hk, rfl⟩
    rw [State.length_blockOfRegs] at hk
    exact Or.inr (Or.inr ⟨k, Nat.le_of_lt_succ hk, rfl⟩)

/-- Settles O29: the registers are loaded from the bytes that lie from `I` up. -/
theorem registersLoaded : Obligations.RegistersLoaded := by
  intro x s hmem
  refine ⟨_, exec_ldRegs_ok x s hmem, ⟨fun k hk => ?_, s.toNat_pastBlock x, State.loadRegsFrom_pc _ _ _⟩, ?_⟩
  · have hkx : k.toNat ≤ x.toNat := hk
    rw [s.memRead_of_lt (by omega)]
    exact congrArg Except.ok (s.reg_loadRegsFrom_bytesAtI s.advance hk).symm
  · have hlen : (s.bytesAtI (x.toNat + 1)).length = x.toNat + 1 := s.length_bytesAtI _
    refine OnlyChanged.stepOne ?_ (State.onlyChanged_setI _ _) (Or.inr (Or.inl rfl))
    refine (OnlyChanged.advance (Or.inl rfl)).step
      (State.onlyChanged_loadRegsFrom (s.bytesAtI (x.toNat + 1)) s.advance 0 (by omega)) ?_
    rintro _ ⟨j, hj, rfl⟩
    exact Or.inr (Or.inr ⟨j, BitVec.le_def.2 (by omega), rfl⟩)

/-- Settles O30: each of the four raises its fault at the lowest address out of range. -/
theorem memoryFaultsAreAllOrNothing : Obligations.MemoryFaultsAreAllOrNothing := by
  rintro s i n (⟨x, rfl, rfl⟩ | ⟨x, rfl, rfl⟩ | ⟨x, rfl, rfl⟩ | ⟨x, y, m, rfl, rfl⟩) hn hout
  · exact faults_of_exec_takeFault (exec_ldB_fault x s hout)
  · exact faults_of_exec_takeFault (exec_stRegs_fault x s hout)
  · exact faults_of_exec_takeFault (exec_ldRegs_fault x s hout)
  · exact faults_of_exec_takeFault (exec_drw_fault x y m s hn (by omega))

/-- Settles O31: the load reads back, byte by byte, what the store wrote. -/
theorem storeThenLoadRestores : Obligations.StoreThenLoadRestores := by
  intro x s hmem
  obtain ⟨t, hstore, ⟨hstored, hpast, -⟩, -⟩ := registersStored x s hmem
  refine ⟨t, hstore, hpast, fun u hut hI => ?_⟩
  have haddr : u.dataAddr = s.dataAddr := congrArg BitVec.toNat hI
  obtain ⟨r, hload, ⟨hloaded, hrpast, -⟩, -⟩ := registersLoaded x u (by rwa [haddr])
  refine ⟨r, hload, fun k hk => ?_, by rw [hrpast, hI]⟩
  have hok : Except.ok (ε := Fault) (r.reg k) = .ok (s.reg k) := by
    rw [← hloaded k hk, hut, haddr, hstored k hk]
  exact Except.ok.inj hok
end

section
/-! Display instructions and the XOR-blit (44_display.md R210 to R216). The laws of the blit carry the draws: what a draw answers
is one state, `State.afterDraw`, whose display and VF are those of the blit. -/

namespace Sys2Proof.Machine

variable {s : State} {x y n : Nibble}

/-! ### The clear (R210) -/

theorem pixel_blankDisplay (r c : Nat) : pixel blankDisplay r c = false := by
  simp [pixel, blankDisplay]

/-! ### The blit turns pixels off and on (R213, R215) -/

/-- The blit reports a collision exactly when it turns a lit pixel off (R213). -/
theorem blit_collided_iff_turnedOff (bs : List Byte) (d : Vector (BitVec 64) 32) (row oc : Nat) :
    (blit d row oc bs).2 = true ↔ ∃ r c, pixel d r c = true ∧ pixel (blit d row oc bs).1 r c = false := by
  rw [blit_collided]
  constructor
  · rintro ⟨r, c, hr, hc, lit, bit⟩
    exact ⟨r, c, lit, by rw [pixel_blit bs d row oc r c hr hc, lit, bit, Bool.xor_self]⟩
  · rintro ⟨r, c, lit, dark⟩
    obtain ⟨hr, hc⟩ : r < 32 ∧ c < 64 := by
      by_contra off
      exact Bool.false_ne_true ((pixel_off d off).symm.trans lit)
    rw [pixel_blit bs d row oc r c hr hc, lit, Bool.true_xor, Bool.not_eq_false'] at dark
    exact ⟨r, c, hr, hc, lit, dark⟩

/-- The blit undoes itself (R215). -/
theorem blit_blit (bs : List Byte) (d : Vector (BitVec 64) 32) (row oc : Nat) :
    (blit (blit d row oc bs).1 row oc bs).1 = d := by
  refine disp_ext fun r c hr hc => ?_
  rw [pixel_blit bs _ row oc r c hr hc, pixel_blit bs d row oc r c hr hc, Bool.xor_assoc, Bool.xor_self, Bool.xor_false]

/-! ### The state after a draw (R212) -/

theorem collisionFlag_eq_one_iff {c : Bool} : collisionFlag c = 1 ↔ c = true := by
  cases c <;> decide

/-- What a draw that does not fault answers. -/
def State.afterDraw (s : State) (x y n : Nibble) : State :=
  (s.advance.setDisp (s.drawn x y n).1).setReg vf (collisionFlag (s.drawn x y n).2)

theorem exec_drw_eq_afterDraw (h : s.spriteInMemory n) : exec (.drw x y n) s = .next (s.afterDraw x y n) :=
  exec_drw_of_spriteInMemory h

theorem State.afterDraw_disp (s : State) (x y n : Nibble) : (s.afterDraw x y n).disp = (s.drawn x y n).1 := rfl

theorem State.afterDraw_pc (s : State) (x y n : Nibble) : (s.afterDraw x y n).pc = s.pc + 2 := rfl

theorem State.afterDraw_reg_of_ne (s : State) (x y n : Nibble) {k : Nibble} (hk : k ≠ vf) :
    (s.afterDraw x y n).reg k = s.reg k :=
  State.reg_setReg_of_ne _ hk _

theorem State.afterDraw_vf_eq_one_iff (s : State) (x y n : Nibble) :
    (s.afterDraw x y n).reg vf = 1 ↔ (s.drawn x y n).2 = true := by
  rw [State.afterDraw, State.reg_setReg_self, collisionFlag_eq_one_iff]

/-- VF says whether the draw turned a lit pixel off (R213). -/
theorem State.afterDraw_vf_eq_one_iff_turnedOff (s : State) (x y n : Nibble) :
    (s.afterDraw x y n).reg vf = 1 ↔
      ∃ r c, pixel s.disp r c = true ∧ pixel (s.afterDraw x y n).disp r c = false :=
  (s.afterDraw_vf_eq_one_iff x y n).trans (blit_collided_iff_turnedOff _ _ _ _)

/-- A draw changes `PC`, VF and pixels of the sprite's footprint. -/
theorem State.onlyChanged_afterDraw (s : State) (x y n : Nibble) :
    OnlyChanged (fun p => p = .pc ∨ p = .reg vf ∨
      ∃ r c, InFootprint (s.reg y).toNat (s.reg x).toNat n.toNat r c ∧ p = .pixel r c) s (s.afterDraw x y n) := by
  have footprint : OnlyChanged _ s.advance (s.advance.setDisp (s.drawn x y n).1) :=
    State.onlyChanged_setDisp fun r c hrc => pixel_blit_of_not_inFootprint s.disp hrc
  rw [State.length_sprite] at footprint
  refine OnlyChanged.stepOne ?_ (State.onlyChanged_setReg _ vf _) (Or.inr (Or.inl rfl))
  exact (OnlyChanged.advance (Or.inl rfl)).step footprint fun _ hp => Or.inr (Or.inr hp)

/-- The second of two draws finds the sprite, the origin and the address as the first did, unless the origin is in VF (R215). -/
theorem State.drawn_afterDraw (s : State) (n : Nibble) (hx : x ≠ vf) (hy : y ≠ vf) :
    (s.afterDraw x y n).drawn x y n = blit (s.drawn x y n).1 (s.reg y).toNat (s.reg x).toNat (s.sprite n) := by
  rw [State.drawn, s.afterDraw_reg_of_ne x y n hx, s.afterDraw_reg_of_ne x y n hy, State.afterDraw_disp]
  rfl

/-- Two draws restore the display (R215). -/
theorem State.afterDraw_afterDraw_disp (s : State) (n : Nibble) (hx : x ≠ vf) (hy : y ≠ vf) :
    ((s.afterDraw x y n).afterDraw x y n).disp = s.disp := by
  rw [State.afterDraw_disp, s.drawn_afterDraw n hx hy]
  exact blit_blit _ _ _ _

/-- A draw of no bytes reads no memory and leaves the display as it is (R214, decision D12). -/
theorem exec_drw_zero (x y : Nibble) (s : State) : exec (.drw x y 0) s = .next (s.advance.setReg vf 0) := rfl

end Sys2Proof.Machine

open Sys2Proof Sys2Proof.Machine Sys2Proof.Laws

/-- Settles O34: the blit's laws, pixel by pixel, on the bounds as the statement writes them. -/
theorem drawXorsThePixels : Obligations.DrawXorsThePixels := by
  intro x y n s hs
  have answer : exec (.drw x y n) s = .next (s.afterDraw x y n) := exec_drw_eq_afterDraw hs
  refine ⟨_, answer, ⟨fun r c hr hc => ?_, vf_zero_or_one_of_drw answer hs, ?_, s.afterDraw_pc x y n⟩, ?_⟩
  · exact pixel_blit _ _ _ _ r c (Nat.lt_succ_of_le hr) (Nat.lt_succ_of_le hc)
  · have collides := (s.afterDraw_vf_eq_one_iff x y n).trans (blit_collided _ _ _ _)
    simpa only [Nat.lt_succ_iff] using collides
  · simpa only [InFootprint, and_assoc] using s.onlyChanged_afterDraw x y n

/-- Settles O35: the collision flag of the blit tells of a pixel turned off. -/
theorem collisionIsALitPixelTurnedOff : Obligations.CollisionIsALitPixelTurnedOff := by
  intro x y n s hs
  have answer : exec (.drw x y n) s = .next (s.afterDraw x y n) := exec_drw_eq_afterDraw hs
  exact ⟨_, answer, vf_zero_or_one_of_drw answer hs, s.afterDraw_vf_eq_one_iff_turnedOff x y n⟩

/-- Settles O37: the second draw turns off what the first turned on, for it restores the display. -/
theorem drawTwiceRestores : Obligations.DrawTwiceRestores := by
  intro x y n s hx hy hs
  have restored := s.afterDraw_afterDraw_disp n hx hy
  have collides := (s.afterDraw x y n).afterDraw_vf_eq_one_iff_turnedOff x y n
  refine ⟨_, _, exec_drw_eq_afterDraw hs, exec_drw_eq_afterDraw hs, restored, ?_⟩
  simpa only [restored, and_comm] using collides

/-- Settles O33: the clear replaces the whole display by the blank one. -/
theorem clearDarkensEveryPixel : Obligations.ClearDarkensEveryPixel := by
  refine ⟨decodeWord_encodeWord .cls, fun s => ⟨_, rfl, ⟨pixel_blankDisplay, rfl⟩, ?_⟩⟩
  have cleared : OnlyChanged _ s.advance (s.advance.setDisp blankDisplay) :=
    State.onlyChanged_setDisp (P := fun _ _ => True) fun _ _ h => absurd trivial h
  refine (OnlyChanged.advance (Or.inl rfl)).step cleared ?_
  rintro _ ⟨r, c, -, rfl⟩
  exact Or.inr ⟨r, c, rfl⟩

/-- Settles O36: with no bytes to draw, the advance and the clear VF are the only updates. -/
theorem emptySpriteClearsVf : Obligations.EmptySpriteClearsVf := fun x y s =>
  ⟨_, exec_drw_zero x y s, ⟨State.reg_setReg_self _ vf 0, rfl⟩,
    (OnlyChanged.advance (Or.inl rfl)).stepOne (s.advance.onlyChanged_setReg vf 0) (Or.inr rfl)⟩
end

section
/-! Keypad and timer instructions (45_keypad_and_timers.md R230 to R236). Both key skips ask one query, and what `Fx0A` answers
turns on whether any key is pressed. -/

namespace Sys2Proof.Machine

open Sys2Proof.Claims

variable {s : State} {x : Nibble}

/-! ### The key query and its skips (R230 to R232) -/

theorem pressed_of_le {inp : StepInput} {k : Byte} (h : k.toNat ≤ 15) : pressed inp k = inp.keys.getLsbD k.toNat :=
  if_pos h

theorem pressed_of_gt {inp : StepInput} {k : Byte} (h : 15 < k.toNat) : pressed inp k = inp.absentKey :=
  if_neg (Nat.not_le_of_lt h)

/-- The query's answer decides both skips, the one against the other. -/
theorem skips_skp_and_sknp {c : Bool} (h : pressed s.input (s.reg x) = c) :
    Skips (.skp x) s (c = true) ∧ Skips (.sknp x) s (c = false) := by
  have hskp : exec (.skp x) s = .next (s.advance.skipIf c) := by rw [← h]; rfl
  have hsknp : exec (.sknp x) s = .next (s.advance.skipIf (!c)) := by rw [← h]; rfl
  exact ⟨skips_of_exec_skipIf (by rwa [Bool.decide_eq_true]), skips_of_exec_skipIf (by rwa [Bool.decide_eq_false])⟩

/-! ### The wait for a key (R234) -/

/-- With no key pressed the rewind undoes the advance. -/
theorem exec_ldVxK_of_no_key (h : s.input.keys = 0) : exec (.ldVxK x) s = .next s :=
  congrArg Host.Outcome.next ((if_pos h).trans s.rewind_advance)

theorem exec_ldVxK_of_key (h : s.input.keys ≠ 0) :
    exec (.ldVxK x) s = .next (s.advance.setReg x (deliveredKey s.input)) :=
  congrArg Host.Outcome.next (if_neg h)

theorem keys_ne_zero_of_getLsbD {keys : Word} {k : Nat} (h : keys.getLsbD k = true) : keys ≠ 0 := by
  rintro rfl
  exact Bool.false_ne_true (BitVec.getLsbD_zero.symm.trans h)

/-- The choice of a key is its place among the pressed ones. -/
theorem exists_choice_deliveredKey (inp : StepInput) {k : Nat} (hk : k ≤ 15) (h : inp.keys.getLsbD k = true) :
    ∃ choice, (deliveredKey { inp with keyChoice := choice }).toNat = k := by
  obtain ⟨j, hj, hget⟩ := List.getElem_of_mem (mem_pressedKeys.2 ⟨Nat.lt_succ_of_le hk, h⟩)
  refine ⟨j, ?_⟩
  rw [deliveredKey, Nat.mod_eq_of_lt hj, List.getD_eq_getElem _ _ hj, hget, BitVec.toNat_ofNat]
  omega

end Sys2Proof.Machine

open Sys2Proof Sys2Proof.Machine Sys2Proof.Laws

/-- Settles O38: the query reads the sampled keys up to 15 and the draw above, and its answer decides both skips. -/
theorem keySkips : Obligations.KeySkips := by
  intro x s
  refine ⟨?_, fun h => skips_skp_and_sknp (pressed_of_gt h)⟩
  rintro k rfl h
  exact skips_skp_and_sknp (pressed_of_le h)

/-- Settles O40: with some key pressed, the delivered one is a pressed one. -/
theorem waitForKey : Obligations.WaitForKey := by
  refine fun x s => ⟨exec_ldVxK_of_no_key, fun h => writesReg_of_exec_setReg (exec_ldVxK_of_key h) ?_⟩
  obtain ⟨hlt, hbit⟩ := deliveredKey_pressed s.input h
  exact ⟨Nat.le_of_lt_succ hlt, hbit⟩

/-- Settles O41: the environment chooses the place of the key among the pressed ones. -/
theorem everyPressedKeyCanBeDelivered : Obligations.EveryPressedKeyCanBeDelivered := by
  intro x s k hk h
  obtain ⟨choice, hchoice⟩ := exists_choice_deliveredKey s.input hk h
  refine ⟨choice, _, exec_ldVxK_of_key (keys_ne_zero_of_getLsbD h), ?_⟩
  rwa [State.reg_setReg_self]

/-- Settles O39: each of the three moves one byte after the advance. -/
theorem timersReadAndSet : Obligations.TimersReadAndSet := by
  refine fun x => ⟨decodeWord_encodeWord (.ldVxDt x), decodeWord_encodeWord (.ldDtVx x), decodeWord_encodeWord (.ldStVx x),
    fun s => ⟨writesReg_of_exec_setReg rfl rfl, ⟨_, rfl, ⟨rfl, rfl⟩, ?_⟩, ⟨_, rfl, ⟨rfl, rfl⟩, ?_⟩⟩⟩
  · exact (OnlyChanged.advance (Or.inl rfl)).stepOne (s.advance.onlyChanged_setDt _) (Or.inr rfl)
  · exact (OnlyChanged.advance (Or.inl rfl)).stepOne (s.advance.onlyChanged_setSt _) (Or.inr rfl)
end

section
/-! Faults (60_exceptions.md R250 to R258): entering one changes FAULT alone, and a halted machine does nothing but count its
timers down until a RESET. -/

namespace Sys2Proof.Machine

open Sys2Proof.Claims

variable {s u : State} {i : Instr} {inp : StepInput}

/-! ### The faults of the call stack (R252, R253) -/

/-- An instruction that answers fault entry on the state it started from faults precisely (R255). -/
theorem faults_of_exec_eq_takeFault {f : Fault} {n : Nat} (h : exec i s = .next (s.takeFault f)) (hinfo : f.info.toNat = n) :
    Faults i s f.code n :=
  ⟨_, h, ⟨rfl, hinfo⟩, s.onlyChanged_takeFault f⟩

/-- The 17 bits of the info hold any address of an instruction (decision D19). -/
theorem toNat_setWidth_info (ipc : Word) : (ipc.setWidth 17).toNat = ipc.toNat :=
  BitVec.toNat_setWidth_of_le (by decide)

/-! ### A halted machine (R256, R258) -/

/-- A STEP of a halted machine samples its inputs, and that is all. -/
theorem step_halted (h : NextIsStep s inp u) (hf : s.fault.code ≠ .noFault) : step s = .next (u.sample inp) := by
  rw [step_of_nextEvent h, State.nextEvent_frame h]
  exact stepUnit_halted hf

end Sys2Proof.Machine

open Sys2Proof Sys2Proof.Machine Sys2Proof.Claims

/-- Settles O10: the push on a full stack and the pop on an empty one raise their fault with the instruction's address. -/
theorem stackFaultsRecordTheInstruction : Obligations.StackFaultsRecordTheInstruction :=
  ⟨fun nnn s hfull => faults_of_exec_eq_takeFault (exec_call_fault nnn s hfull) (toNat_setWidth_info s.pc),
    fun s hempty => faults_of_exec_eq_takeFault (exec_ret_fault s hempty) (toNat_setWidth_info s.pc)⟩

/-- Settles O51: an instruction leaves FAULT alone or answers fault entry on the state it started from. -/
theorem faultEntryIsPrecise : Obligations.FaultEntryIsPrecise := by
  intro i s t h changed
  obtain kept | ⟨-, f, rfl⟩ := exec_fault_cases h
  · exact absurd kept changed
  · exact s.onlyChanged_takeFault f

/-- Settles O49: a STEP of a halted machine only samples, and a TICK moves the timers alone. -/
theorem haltedUntilReset : Obligations.HaltedUntilReset := by
  intro s hf hreset
  obtain ⟨u, ⟨inp, h, -⟩ | ⟨h, -⟩ | ⟨image, h, -⟩⟩ := step_cases s
  · have sampled := onlyChanged_sample_of_nextIsStep h
    refine ⟨_, step_halted h hf, sampled.mono fun _ hp => Or.inr (Or.inr hp), fun _ => ⟨?_, ?_⟩⟩
    · exact sampled .delay (by simp [ownFields])
    · exact sampled .sound (by simp [ownFields])
  · obtain ⟨t, hstep, -, -, -, -, ticked⟩ := tickCountsDown s u h
    refine ⟨t, hstep, ticked.mono ?_, fun hne => absurd (congrArg Prod.fst h) hne⟩
    exact fun _ hp => hp.imp_right (Or.imp_right fun henv => Or.inr (Or.inl henv))
  · exact absurd (congrArg Prod.fst h) (hreset image)
end

section
/-! RESET with the empty image and with one that does not fit (70_reset_and_hazards.md R290 to R296): both answer the cleared
state, the second with FAULT set. -/

namespace Sys2Proof.Machine

open Sys2Proof.Claims

variable {s t : State}

/-- The empty image writes no byte (R293). -/
theorem State.resetWith_nil (s : State) : s.resetWith [] = s.cleared := by
  rw [s.resetWith_of_fits (Nat.zero_le _)]
  rfl

/-- An image that does not fit loads nothing and enters the fault (R292, decision D26). -/
theorem State.resetWith_of_tooLarge (s : State) {image : List Byte} (h : 3585 ≤ image.length) :
    s.resetWith image = s.cleared.takeFault (.imageTooLarge image.length) := by
  rw [State.resetWith, if_neg (by omega)]

theorem State.hasResetValues_cleared (s : State) : HasResetValues s.cfg.font [] s.cleared :=
  s.resetWith_nil ▸ s.hasResetValues_resetWith (Nat.zero_le _)

/-- FAULT is none of the pieces these reset values speak of. -/
theorem hasResetValues_takeFault {font : Vector Byte 80} {image : List Byte} (h : HasResetValues font image t) (f : Fault) :
    HasResetValues font image (t.takeFault f) where
  mem := h.mem
  v := h.v
  i := h.i
  pc := h.pc
  dt := h.dt
  st := h.st
  stack := h.stack
  disp := h.disp

/-- The saturated length fits the 17 bits of the info (decision D19). -/
theorem toNat_info_imageTooLarge (n : Nat) : (Fault.imageTooLarge n).info.toNat = min n 131071 := by
  simp only [Fault.info, BitVec.toNat_ofNat]
  omega

/-- With the default parameters a cleared state differs from the reset state in what the environment still has to do alone. -/
theorem State.cleared_of_defaultConfig (h : s.cfg = defaultConfig) :
    s.cleared = (State.reset.setSchedule s.schedule).setDraws s.draws := by
  rw [State.cleared, h]
  rfl

end Sys2Proof.Machine

open Sys2Proof Sys2Proof.Machine

/-- Settles O54: fault entry on the cleared state sets FAULT and leaves the reset values. -/
theorem tooLargeImageHalts : Obligations.TooLargeImageHalts := by
  intro s u image h himage
  have hcfg : u.cfg = s.cfg := State.onlyChanged_nextEvent h .parameters nofun
  have hstep : step s = .next (u.cleared.takeFault (.imageTooLarge image.length)) :=
    (step_of_nextEvent h).trans (congrArg Host.Outcome.next (u.resetWith_of_tooLarge himage))
  have hvalues := hasResetValues_takeFault u.hasResetValues_cleared (.imageTooLarge image.length)
  exact ⟨_, hstep, hcfg ▸ hvalues, rfl, toNat_info_imageTooLarge _, hcfg⟩

/-- Settles O55: RESET with the empty image answers the cleared state, and taking the event keeps the parameters. -/
theorem resetEventGivesTheResetState : Obligations.ResetEventGivesTheResetState := by
  intro s u h hdefault
  have hcfg : u.cfg = s.cfg := State.onlyChanged_nextEvent h .parameters nofun
  calc step s = .next (u.resetWith []) := step_of_nextEvent h
    _ = .next u.cleared := by rw [u.resetWith_nil]
    _ = .next ((State.reset.setSchedule u.schedule).setDraws u.draws) := by
      rw [State.cleared_of_defaultConfig (hcfg.trans hdefault)]
end
